-- ==== Sys2Proof/Word.lean ====
section
/-! DEFINITION. The word types of base2048 CORE (spec/00_scope.md R7, R8; spec/20_memory.md R63). -/

namespace Sys2Proof

/-- A command word: one 32-bit value on the command port (spec/30_encoding.md R73). -/
abbrev Word := BitVec 32

/-- An input or output byte (R63). -/
abbrev Byte := BitVec 8

/-- A code point as the symbol ports carry it: 21 bits (R63, decision D13). -/
abbrev CodePoint := BitVec 21

/-- An 11-bit symbol value, the index of `ENC_TABLE` (spec/20_memory.md R51). -/
abbrev SymValue := BitVec 11

/-- A 3-bit index of the tail alphabet (spec/20_memory.md R52). -/
abbrev TailIndex := BitVec 3

/-- A symbol's position in its call, modulo `2^POS_WIDTH` (spec/10_state.md R27). `POS_WIDTH` is 32 for this hardware
(spec/00_scope.md R7, decision D12; log entry 6). -/
abbrev Pos := BitVec 32

end Sys2Proof
end

