-- ==== Sys2Proof/Syntax.lean ====
section
/-! DEFINITION. The four commands of base2048 CORE, one constructor per row of spec/opcode_table.json. -/

namespace Sys2Proof

/-- A legal command (spec/30_encoding.md R74, operands R75). -/
inductive Instr where
  /-- ENC_BYTE: one input byte for the encoder (spec/40_encoder.md R100). -/
  | encByte (b : Byte)
  /-- ENC_END: closes the encode call (spec/40_encoder.md R101). -/
  | encEnd
  /-- DEC_SYM: the next symbol's code point for the decoder (spec/41_decoder.md R131). -/
  | decSym (c : CodePoint)
  /-- DEC_END: closes the decode call (spec/41_decoder.md R132). -/
  | decEnd
deriving DecidableEq, Repr

end Sys2Proof
end

