-- ==== Sys2Proof/WellFormed.lean ====
section
/-! DEFINITION. Well-formedness of commands.

The operand ranges of spec/30_encoding.md R74 and R75 (a byte 0..255, a code point 0..0x1FFFFF) are carried by the
operands' types, so every term of `Instr` meets the check below; `Sys2Proof.Instr.wellFormed_always` (Laws/Decode.lean)
says so. Operands that can be out of range exist in the assembler's source statements only (R80: "An operand out of range
is an assembly error, not a command."); their check is `Sys2Proof.Machine.Asm.Stmt.wellFormed` in Machine/Asm.lean, and
the ill-formed terms it refuses are in Tests/Slice0.lean. -/

namespace Sys2Proof

/-- The operand fits the field spec/30_encoding.md R74 gives it: 8 bits for ENC_BYTE, 21 bits for DEC_SYM. -/
def Instr.wellFormed : Instr → Bool
  | .encByte b => decide (b.toNat < 2 ^ 8)
  | .encEnd => true
  | .decSym c => decide (c.toNat < 2 ^ 21)
  | .decEnd => true

end Sys2Proof
end

