-- ==== Sys2Proof/Decode.lean ====
section
/-! DEFINITION. Command decoding and encoding (spec/30_encoding.md R73 to R76; decision D2). -/

namespace Sys2Proof

/-- Why a word is ILLEGAL (R76): no command has its opcode, or its command requires a zero where the word has a one.
The block does the same in both cases; the two names are the model's (log entry 15). -/
inductive IllegalWord where
  | unusedOpcode
  | requiredZeroSet
deriving DecidableEq, Repr

/-- A row of the opcode table: a word `w` is this command when `w &&& mask = pattern` (R74). -/
structure OpcodeRow where
  mnemonic : String
  mask : Word
  pattern : Word
deriving DecidableEq, Repr

/-- The four rows of R74 (spec/opcode_table.json). -/
def opcodeTable : List OpcodeRow :=
  [⟨"ENC_BYTE", 0xFFFFFF00#32, 0x01000000#32⟩,
   ⟨"ENC_END", 0xFFFFFFFF#32, 0x02000000#32⟩,
   ⟨"DEC_SYM", 0xFFE00000#32, 0x10000000#32⟩,
   ⟨"DEC_END", 0xFFFFFFFF#32, 0x11000000#32⟩]

/-- `OPC = w[31:24]` (R73). -/
def opcodeOf (w : Word) : BitVec 8 := w.extractLsb' 24 8

/-- The opcodes R74 gives to commands. -/
def usedOpcodes : List (BitVec 8) := [0x01#8, 0x02#8, 0x10#8, 0x11#8]

/-- Why `w` is illegal, for a word no row matches. -/
def illegalReason (w : Word) : IllegalWord :=
  if opcodeOf w ∈ usedOpcodes then .requiredZeroSet else .unusedOpcode

/-- `decodeCommand(w)` of R76. -/
def decode (w : Word) : Except IllegalWord Instr :=
  if w &&& 0xFFFFFF00#32 = 0x01000000#32 then .ok (.encByte (w.extractLsb' 0 8))
  else if w = 0x02000000#32 then .ok .encEnd
  else if w &&& 0xFFE00000#32 = 0x10000000#32 then .ok (.decSym (w.extractLsb' 0 21))
  else if w = 0x11000000#32 then .ok .decEnd
  else .error (illegalReason w)

/-- The word of a command: its match value with the operand in the payload's low bits (R74; spec/95_test_vectors.md 0:
"`ENC_BYTE(b) = 0x01000000 | b`"). -/
def encode : Instr → Word
  | .encByte b => 0x01000000#32 ||| b.setWidth 32
  | .encEnd => 0x02000000#32
  | .decSym c => 0x10000000#32 ||| c.setWidth 32
  | .decEnd => 0x11000000#32

/-- The 32-bit word whose low `nbits` bits are those of `w`, the others zero; every command is 32 bits (R73). -/
def tableWord (nbits w : Nat) : Word := BitVec.ofNat 32 (w % 2 ^ nbits)

/-- What the decoder reads from an instruction whose bits are `w`. The command word is one value on a 32-bit port, so no
byte order applies (spec/20_memory.md R60); a row of more than 32 bits names no command (R73). -/
def decodeTableWord (nbits w : Nat) : Option Instr :=
  if nbits ≤ 32 then (decode (tableWord nbits w)).toOption else none

end Sys2Proof
end

