-- ==== Sys2Proof/Config.lean ====
section
/-! DEFINITION. The parameters of base2048 CORE (spec/00_scope.md R7): the three alphabet tables and `MAXCP`.
The tables' contents are not in the spec (spec/91_not_in_source.md N1, N2), so their constants below have no body: nothing
can be proved about their values, and whatever is proved of the machine holds for every table (log entry 5). `MAXCP` has
the value R7 gives this hardware; `Tables` takes it as a parameter, so that claims over all `Tables` leave it open. -/

namespace Sys2Proof

/-- An entry of the reverse table: a main-alphabet value or the terminator sentinel (spec/20_memory.md R54). -/
inductive DecEntry where
  /-- `Data(v)`: the code point stands for the 11-bit value `v`. -/
  | data (v : SymValue)
  /-- `Term`: the code point is flagged as a terminator. -/
  | term
deriving DecidableEq, Repr, Inhabited

/-- The parameters a machine is built with (spec/00_scope.md R7). `dec` is total on 21-bit code points; the entries above
`maxCp` are not part of the spec's table and are never read (spec/20_memory.md R53; log entry 12). -/
structure Tables where
  /-- `ENC_TABLE` (R51). -/
  enc : SymValue → CodePoint
  /-- `TAIL_TABLE` (R52). -/
  tail : TailIndex → CodePoint
  /-- `DEC_TABLE` (R53). -/
  dec : CodePoint → DecEntry
  /-- `MAXCP`, at most 0x1FFFFF (R7). -/
  maxCp : CodePoint

namespace Config

/-- The contents of `ENC_TABLE`, OPEN in the spec. -/
opaque encTable : SymValue → CodePoint

/-- The contents of `TAIL_TABLE`, OPEN in the spec. -/
opaque tailTable : TailIndex → CodePoint

/-- The contents of `DEC_TABLE`, OPEN in the spec. -/
opaque decTable : CodePoint → DecEntry

/-- `MAXCP` of this hardware: "the model takes it as a parameter with 4339 as the instance value" (R7;
spec/93_implementation_defined.md I1). -/
def maxCp : CodePoint := 4339#21

/-- The parameters of this machine, constant for the whole run (spec/20_memory.md R57). -/
def tables : Tables := ⟨encTable, tailTable, decTable, maxCp⟩

end Config

namespace Tables

/-- T1 of `WF_TABLES` (spec/20_memory.md R56): the reverse table inverts the forward table on the main alphabet. -/
def T1 (T : Tables) : Prop := ∀ v : SymValue, T.enc v ≤ T.maxCp ∧ T.dec (T.enc v) = .data v

/-- T2 of `WF_TABLES`: each tail symbol resolves to the terminator sentinel. -/
def T2 (T : Tables) : Prop := ∀ j : TailIndex, T.tail j ≤ T.maxCp ∧ T.dec (T.tail j) = .term

/-- T3 of `WF_TABLES`: the 8 tail symbols are distinct. -/
def T3 (T : Tables) : Prop := ∀ i j : TailIndex, T.tail i = T.tail j → i = j

/-- T4 of `WF_TABLES`, the strong reading that only spec/41_decoder.md R142 needs. -/
def T4 (T : Tables) : Prop := ∀ (c : CodePoint) (v : SymValue), c ≤ T.maxCp → T.dec c = .data v → T.enc v = c

/-- What the round-trip claims take of the tables: T1, T2 and T3 (spec/41_decoder.md R140). -/
def WF (T : Tables) : Prop := T.T1 ∧ T.T2 ∧ T.T3

end Tables

end Sys2Proof
end

