-- ==== Sys2Proof/Machine/State.lean ====
section
/-! DEFINITION. The architectural state (spec/10_state.md R20 to R30), the reset state, the fault and refusal types. -/

namespace Sys2Proof.Machine

/-- The sub-cases of DecodeError (spec/60_exceptions.md R171); their numbers are `ErrCode.number` in Flags.lean. -/
inductive ErrCode where
  /-- 1: the code point exceeds `MAXCP` (R172). -/
  | invalidCharacter
  /-- 2: a terminator that is not the last symbol (R173). -/
  | unexpectedAfterTerminator
  /-- 3: a terminator that is not in the tail alphabet (R174). -/
  | invalidTerminationCharacter
  /-- 4: a tail index that does not fit the bits owed (R175). -/
  | invalidTailCharacter
deriving DecidableEq, Repr

/-- A token of the encoder's output stream (spec/30_encoding.md R77). -/
inductive EncToken where
  /-- `Sym(cp)`. -/
  | sym (cp : CodePoint)
  /-- `EncDone` closes one encode call. -/
  | encDone
deriving DecidableEq, Repr

/-- The status a DecDone token carries (spec/30_encoding.md R78). -/
inductive Status where
  | ok
  | err (code : ErrCode) (pos : Pos) (cp : CodePoint)
deriving DecidableEq, Repr

/-- A token of the decoder's output stream (spec/30_encoding.md R78). -/
inductive DecToken where
  /-- `Byte(b)`. -/
  | byte (b : Byte)
  /-- `DecDone(status)` closes one decode call. -/
  | decDone (status : Status)
deriving DecidableEq, Repr

/-- What the host can do to the block between two steps (spec/70_reset_and_hazards.md R200, R203, R211). -/
inductive HostEvent where
  /-- A 32-bit word on the command port, legal or not. -/
  | word (w : Word)
  /-- The reset event, outside the command stream. -/
  | reset
deriving DecidableEq, Repr

/-- The state of the block (spec/10_state.md R20), under the spec's register names. Registers of a bounded integer range
are typed by that range, and `d_err = 0` ("no error in the current call", R28) is `none` (log entry 7). -/
structure State where
  /-- The encoder's bit accumulator (R21). -/
  e_stage : BitVec 10
  /-- How many low bits of `e_stage` are valid, 0..10 (R22). -/
  e_rem : Fin 11
  /-- The decoder's bit accumulator (R23). -/
  d_stage : BitVec 8
  /-- How many low bits of `d_stage` are valid, 0..8 (R24). -/
  d_rem : Fin 9
  /-- The residue counter, 0..7 (R25). -/
  d_residue : Fin 8
  /-- Whether the lookahead register holds a symbol (R26). -/
  d_pend_valid : Bool
  /-- The symbol accepted but not yet processed (R26). -/
  d_pend_cp : CodePoint
  /-- How many symbols the current call has accepted, modulo `2^POS_WIDTH` (R27). -/
  d_count : Pos
  /-- The error latch: the code, or none (R28). -/
  d_err : Option ErrCode
  /-- The offending symbol's position (R28). -/
  d_err_pos : Pos
  /-- The offending symbol's code point (R28). -/
  d_err_cp : CodePoint
  /-- The sticky command fault flag, driven on a level output (R29). -/
  cmd_fault : Bool
  /-- Every token the encoder has emitted, the first one first (R30). -/
  enc_out : List EncToken
  /-- Every token the decoder has emitted, the first one first (R30). -/
  dec_out : List DecToken
  /-- The MODEL's own field: what the host has yet to present, in order (spec/20_memory.md R64; log entry 1). -/
  port : List HostEvent
deriving DecidableEq, Repr

/-- Reasons a step could stop with a fault. There are none: an illegal word sets `cmd_fault` and the machine goes on
(spec/60_exceptions.md R183), a DecodeError is latched and the machine goes on (R178), and R170 says that nothing else in
the block is an error. Nobody raises a fault, which is safe. -/
inductive Fault where
deriving DecidableEq, Repr

/-- Reasons for having no meaning. -/
inductive Refusal where
  /-- An instruction the model gives no meaning yet; raised by `exec`'s arms only (none now), safe. -/
  | notModelled (mnemonic : String)
deriving DecidableEq, Repr

/-- The state right after reset, before any token was emitted and with no word presented: every register at the reset
value of spec/10_state.md R20 (R38, R39); the empty streams are log entry 9, the empty port log entry 4. -/
def State.reset : State where
  e_stage := 0#10
  e_rem := 0
  d_stage := 0#8
  d_rem := 0
  d_residue := 0
  d_pend_valid := false
  d_pend_cp := 0#21
  d_count := 0#32
  d_err := none
  d_err_pos := 0#32
  d_err_cp := 0#21
  cmd_fault := false
  enc_out := []
  dec_out := []
  port := []

end Sys2Proof.Machine
end

