-- ==== Sys2Proof/Machine/Flags.lean ====
section
/-! DEFINITION. The block's status bits: it has no flags or condition codes (spec/10_state.md R34), only the error latch's
code, as a number, and `cmd_fault`. -/

namespace Sys2Proof.Machine

/-- The code's number (spec/60_exceptions.md R171, decision D8). -/
def ErrCode.number : ErrCode → BitVec 3
  | .invalidCharacter => 1#3
  | .unexpectedAfterTerminator => 2#3
  | .invalidTerminationCharacter => 3#3
  | .invalidTailCharacter => 4#3

/-- The 3-bit contents of the register `d_err`: 0 for no error, else the code's number (spec/10_state.md R28). -/
def errBits : Option ErrCode → BitVec 3
  | none => 0#3
  | some code => code.number

/-- What an illegal word does: `cmd_fault <- 1` and nothing else (spec/60_exceptions.md R183). -/
def State.setCmdFault (s : State) : State := { s with cmd_fault := true }

end Sys2Proof.Machine
end

