-- ==== Sys2Proof/Machine/Operands.lean ====
section
/-! DEFINITION. Bit fields and operand forms: masks and truncation (spec/00_scope.md R9), the encoder's index assembly
(spec/30_encoding.md R71), the decoder's value extraction (R72), the search of the tail alphabet (spec/20_memory.md R55).
Values are exact natural numbers; what is written to a register is narrowed where it is written. -/

namespace Sys2Proof.Machine

/-- `mask(k) = 2^k - 1` (R9). -/
def mask (k : Nat) : Nat := 2 ^ k - 1

/-- `trunc8(a) = a mod 256` (R9). -/
def trunc8 (a : Nat) : Byte := BitVec.ofNat 8 a

/-- `need = 11 - e_rem`: how many bits complete the encoder's group (spec/40_encoder.md R100). -/
def encNeed (rem : Nat) : Nat := 11 - rem

/-- `idx = (e_stage << need) | (b >> leftover)`, with `need` in 1..8 and `leftover = 8 - need` (R71). -/
def encIndex (stage need b : Nat) : Nat := (stage <<< need) ||| (b >>> (8 - need))

/-- An index as `ENC_TABLE`'s address port takes it: 11 bits (R51; log entry 8). -/
def encAddress (idx : Nat) : SymValue := BitVec.ofNat 11 idx

/-- The residue with one more symbol counted: `(d_residue + 11) mod 8` (spec/41_decoder.md R130 step 1). -/
def nextResidue (residue : Fin 8) : Fin 8 := Fin.ofNat 8 (residue.val + 11)

/-- How many bits a data symbol supplies: 11, or `11 - res` for the last symbol (R72). -/
def dataBits (last : Bool) (res : Fin 8) : Nat := if last then 11 - res.val else 11

/-- How many bits a tail symbol supplies: `8 - d_rem` (R72). -/
def tailBits (rem : Fin 9) : Nat := 8 - rem.val

/-- The merged accumulator `acc = (d_stage << k) | v`, `v` not masked (R72). -/
def merge (stage : BitVec 8) (k v : Nat) : Nat := (stage.toNat <<< k) ||| v

/-- The indices of the tail alphabet, ascending. -/
def tailIndices : List TailIndex := [0#3, 1#3, 2#3, 3#3, 4#3, 5#3, 6#3, 7#3]

/-- `tailIndex(c)`: the smallest `j` with `TAIL_TABLE[j] = c` (R55, decision D15). -/
def tailIndex (T : Tables) (c : CodePoint) : Option TailIndex :=
  tailIndices.find? fun j => decide (T.tail j = c)

/-- The pending symbol's position `(d_count - 1) mod 2^POS_WIDTH` (spec/10_state.md R27). -/
def pendPos (s : State) : Pos := s.d_count - 1#32

end Sys2Proof.Machine
end

