-- ==== Sys2Proof/Machine/Ops.lean ====
section
/-! DEFINITION. The shared operations over the registers, the streams and the port: register writes, emitting tokens,
the initial states of the engines, PROCESS (spec/41_decoder.md R130), taking a DecodeError and returning from one
(spec/60_exceptions.md R178, R180), reset (spec/70_reset_and_hazards.md R200) and taking a host event from the port. -/

namespace Sys2Proof.Machine

namespace State

/-- Writes the encoder's two registers. -/
def setEnc (s : State) (stage : BitVec 10) (rem : Fin 11) : State := { s with e_stage := stage, e_rem := rem }

/-- Writes the decoder's accumulator, its counter and its residue. -/
def setDec (s : State) (stage : BitVec 8) (rem : Fin 9) (residue : Fin 8) : State :=
  { s with d_stage := stage, d_rem := rem, d_residue := residue }

/-- `emit_E(t)` (spec/30_encoding.md R79). -/
def emitE (s : State) (t : EncToken) : State := { s with enc_out := s.enc_out ++ [t] }

/-- `emit_D(t)` (R79). -/
def emitD (s : State) (t : DecToken) : State := { s with dec_out := s.dec_out ++ [t] }

/-- `emit_D(Byte(b))` for each byte in order. -/
def emitBytes (s : State) (bs : List Byte) : State := { s with dec_out := s.dec_out ++ bs.map DecToken.byte }

/-- Holds `c` in the lookahead register and counts it (spec/41_decoder.md R131). -/
def holdPending (s : State) (c : CodePoint) : State :=
  { s with d_pend_cp := c, d_pend_valid := true, d_count := s.d_count + 1#32 }

/-- Brings the encoder to `ENC_INIT` (spec/10_state.md R38). -/
def encInit (s : State) : State := { s with e_stage := 0#10, e_rem := 0 }

/-- Brings the decoder to `DEC_INIT` (R38). -/
def decInit (s : State) : State :=
  { s with d_stage := 0#8, d_rem := 0, d_residue := 0, d_pend_valid := false, d_pend_cp := 0#21, d_count := 0#32,
           d_err := none, d_err_pos := 0#32, d_err_cp := 0#21 }

end State

/-- Taking an error: `raise DecodeError(code, i, c)` writes the error latch and nothing else. There is no vector and no
handler, so control goes nowhere (spec/60_exceptions.md R178). -/
def raiseDecodeError (s : State) (code : ErrCode) (i : Pos) (c : CodePoint) : State :=
  { s with d_err := some code, d_err_pos := i, d_err_cp := c }

/-- The status DEC_END reports (spec/60_exceptions.md R180, spec/30_encoding.md R78). -/
def callStatus (s : State) : Status :=
  match s.d_err with
  | none => .ok
  | some code => .err code s.d_err_pos s.d_err_cp

/-- Returning from an error, and the end of every decode call: the status is reported and the decoder, its error latch
with it, returns to `DEC_INIT` (spec/60_exceptions.md R180, spec/41_decoder.md R132). -/
def endDecodeCall (s : State) : State := (s.emitD (.decDone (callStatus s))).decInit

/-- Steps 2 to 4 of PROCESS (spec/41_decoder.md R130) in the source's check order (spec/60_exceptions.md R176): the error
the symbol raises, or the number of bits `k` it supplies and their value `v`. -/
def checkSymbol (T : Tables) (c : CodePoint) (last : Bool) (res : Fin 8) (rem : Fin 9) : Except ErrCode (Nat × Nat) :=
  if T.maxCp < c then .error .invalidCharacter
  else
    match T.dec c with
    | .data v => .ok (dataBits last res, v.toNat)
    | .term =>
      if last = false then .error .unexpectedAfterTerminator
      else
        match tailIndex T c with
        | none => .error .invalidTerminationCharacter
        | some t => if 2 ^ tailBits rem ≤ t.toNat then .error .invalidTailCharacter else .ok (tailBits rem, t.toNat)

/-- The loop of step 6, `while r > 8`, with the bytes it emits, and the values of `acc` and `r` after it. Each round
takes 8 from `r`, so `r` rounds of fuel never run out. -/
def drainRounds : Nat → Nat → Nat → List Byte × Nat × Nat
  | 0, acc, r => ([], acc, r)
  | fuel + 1, acc, r =>
    if r > 8 then
      let rest := drainRounds fuel (acc &&& mask (r - 8)) (r - 8)
      (trunc8 (acc >>> (r - 8)) :: rest.1, rest.2)
    else ([], acc, r)

/-- Step 6 of PROCESS (spec/41_decoder.md R130). -/
def drain (acc r : Nat) : List Byte × Nat × Nat := drainRounds r acc r

/-- The final flush: one byte `trunc8(acc >> (8 - r))` when bits are left (R130, decision D11; `r = 8` there by R135). -/
def finalFlush (acc r : Nat) : List Byte := if r > 0 then [trunc8 (acc >>> (8 - r))] else []

/-- `PROCESS(c, i, last)` (spec/41_decoder.md R130). -/
def process (T : Tables) (c : CodePoint) (i : Pos) (last : Bool) (s : State) : State :=
  match checkSymbol T c last (nextResidue s.d_residue) s.d_rem with
  | .error code => raiseDecodeError s code i c
  | .ok (k, v) =>
    let d := drain (merge s.d_stage k v) (s.d_rem.val + k)
    if last then s.emitBytes (d.1 ++ finalFlush d.2.1 d.2.2)
    else (s.emitBytes d.1).setDec (BitVec.ofNat 8 d.2.1) (Fin.ofNat 9 d.2.2) (nextResidue s.d_residue)

/-- PROCESS of the pending symbol, if there is one (spec/41_decoder.md R131, R132). -/
def processPending (T : Tables) (last : Bool) (s : State) : State :=
  if s.d_pend_valid then process T s.d_pend_cp (pendPos s) last s else s

/-- The reset event: every register at its reset value; no token is emitted, the streams stay as they are
(spec/70_reset_and_hazards.md R200, spec/10_state.md R39). -/
def applyReset (s : State) : State := { s.encInit.decInit with cmd_fault := false }

/-- The host event to act on next, and the state in which it acts (spec/20_memory.md R64: in the order presented). -/
def takeEvent (s : State) : Option (HostEvent × State) :=
  match s.port with
  | [] => none
  | e :: rest => some (e, { s with port := rest })

/-- What the block does while the host presents nothing: it waits (log entry 2). -/
def waitForHost (s : State) : State := s

/-- The host presents `e` before everything it has yet to present. -/
def present (s : State) (e : HostEvent) : State := { s with port := e :: s.port }

end Sys2Proof.Machine
end

