-- ==== Sys2Proof/Machine/Decoder.lean ====
section
/-! DEFINITION. DEC_SYM and DEC_END (spec/41_decoder.md). -/

namespace Sys2Proof.Machine

/-- DEC_SYM (spec/41_decoder.md R131): the pending symbol is processed as not last and, unless the call has failed, `c`
becomes pending. In a failed call nothing happens (spec/60_exceptions.md R179). -/
def decSymEffect (T : Tables) (c : CodePoint) (s : State) : State :=
  match s.d_err with
  | some _ => s
  | none =>
    let s₁ := processPending T false s
    match s₁.d_err with
    | some _ => s₁
    | none => s₁.holdPending c

/-- DEC_END (spec/41_decoder.md R132): unless the call has failed the pending symbol is processed as last; the call's
status is reported and the decoder returns to `DEC_INIT`. -/
def decEndEffect (T : Tables) (s : State) : State :=
  match s.d_err with
  | some _ => endDecodeCall s
  | none => endDecodeCall (processPending T true s)

/-- The meaning of DEC_SYM on this machine's tables (R131). -/
def execDecSym (c : CodePoint) (s : State) : Host.Outcome State Fault Refusal := .next (decSymEffect Config.tables c s)

/-- The meaning of DEC_END on this machine's tables (R132). -/
def execDecEnd (s : State) : Host.Outcome State Fault Refusal := .next (decEndEffect Config.tables s)

end Sys2Proof.Machine
end

