-- ==== Sys2Proof/Machine/Encoder.lean ====
section
/-! DEFINITION. ENC_BYTE and ENC_END (spec/40_encoder.md). -/

namespace Sys2Proof.Machine

/-- ENC_BYTE (spec/40_encoder.md R100), with the branch `need <= 8` (spec/90_conflicts.md C1). -/
def encByteEffect (T : Tables) (b : Byte) (s : State) : State :=
  let need := encNeed s.e_rem.val
  if need ≤ 8 then
    (s.emitE (.sym (T.enc (encAddress (encIndex s.e_stage.toNat need b.toNat))))).setEnc
      (BitVec.ofNat 10 (b.toNat &&& mask (8 - need))) (Fin.ofNat 11 (8 - need))
  else
    s.setEnc (BitVec.ofNat 10 ((s.e_stage.toNat <<< 8) ||| b.toNat)) (Fin.ofNat 11 (s.e_rem.val + 8))

/-- The final symbol of an encode call: none, a tail symbol for 1 to 3 bits, a main symbol for 4 to 10 bits, the index
not shifted (spec/40_encoder.md R101, spec/30_encoding.md R71). -/
def finalSymbol (T : Tables) (stage : BitVec 10) (rem : Fin 11) : Option CodePoint :=
  if rem.val = 0 then none
  else if rem.val ≤ 3 then some (T.tail (stage.setWidth 3))
  else some (T.enc (stage.setWidth 11))

/-- ENC_END (spec/40_encoder.md R101). -/
def encEndEffect (T : Tables) (s : State) : State :=
  match finalSymbol T s.e_stage s.e_rem with
  | none => (s.emitE .encDone).encInit
  | some cp => ((s.emitE (.sym cp)).emitE .encDone).encInit

/-- The meaning of ENC_BYTE on this machine's tables (R100); it never raises an error (spec/60_exceptions.md R182). -/
def execEncByte (b : Byte) (s : State) : Host.Outcome State Fault Refusal := .next (encByteEffect Config.tables b s)

/-- The meaning of ENC_END on this machine's tables (R101). -/
def execEncEnd (s : State) : Host.Outcome State Fault Refusal := .next (encEndEffect Config.tables s)

end Sys2Proof.Machine
end

