-- ==== Sys2Proof/Machine/Step.lean ====
section
/-! DEFINITION. One step: the block takes the next host event from its port and acts on it
(spec/20_memory.md R62, R64; spec/70_reset_and_hazards.md R200, R210). -/

namespace Sys2Proof.Machine

/-- A step of a block whose legal commands do what `ex` says: a legal word runs its command, an illegal one sets
`cmd_fault` (spec/60_exceptions.md R183), a reset resets (spec/70_reset_and_hazards.md R200); with nothing presented the
block waits. -/
def stepUsing (ex : Instr → State → Host.Outcome State Fault Refusal) (s : State) : Host.Outcome State Fault Refusal :=
  match takeEvent s with
  | none => .next (waitForHost s)
  | some (.reset, s') => .next (applyReset s')
  | some (.word w, s') =>
    match decode w with
    | .ok i => ex i s'
    | .error _ => .next s'.setCmdFault

/-- One step of the machine. -/
def step (s : State) : Host.Outcome State Fault Refusal := stepUsing exec s

/-- `s` with the word of an instruction, its bits `w`, as the next one the host presents. The block fetches nothing
(spec/10_state.md R33); log entry 4 says how words come to run. -/
def State.withFetchWord (s : State) (nbits w : Nat) : State := present s (.word (tableWord nbits w))

end Sys2Proof.Machine
end

