-- ==== Sys2Proof/Machine/Asm.lean ====
section
/-! DEFINITION. The assembler (spec/30_encoding.md R80 to R82; decision D23): source statements, their operand ranges,
their command words, and the reading of source text. It is no part of the machine: it says which words a source line
stands for. What R80 leaves open of the text form is log entry 14. -/

namespace Sys2Proof.Machine.Asm

/-- Why a line does not assemble. -/
inductive AsmError where
  /-- An operand out of range: "an assembly error, not a command" (R80). -/
  | operandRange
  /-- A mnemonic R80 and R81 do not list. -/
  | unknownMnemonic
  /-- An operand that is not written in a form of R80 or R82, or a wrong number of operands. -/
  | badOperand
deriving DecidableEq, Repr

/-- A `<cp>` operand (R80, R82). -/
inductive CpOperand where
  /-- A number, however it was written. -/
  | num (n : Nat)
  /-- `M(v)`. -/
  | main (v : Nat)
  /-- `T(j)`. -/
  | tail (j : Nat)
deriving DecidableEq, Repr

/-- A source statement (R80), the two pseudo-instructions among them (R81). -/
inductive Stmt where
  | encByte (n : Nat)
  | encEnd
  | decSym (o : CpOperand)
  | decEnd
  | word (n : Nat)
  | encodeAll (bytes : List Nat)
  | decodeAll (cps : List CpOperand)
deriving DecidableEq, Repr

/-- The range of an `<imm8>` (R80). -/
def imm8Ok (n : Nat) : Bool := decide (n ≤ 255)

/-- The range of a `<cp>` operand, a table operand among them (R80, R82). -/
def CpOperand.wellFormed : CpOperand → Bool
  | .num n => decide (n ≤ 0x1FFFFF)
  | .main v => decide (v ≤ 2047)
  | .tail j => decide (j ≤ 7)

/-- Every operand is in range (R80). -/
def Stmt.wellFormed : Stmt → Bool
  | .encByte n => imm8Ok n
  | .encEnd => true
  | .decSym o => o.wellFormed
  | .decEnd => true
  | .word n => decide (n < 2 ^ 32)
  | .encodeAll bytes => bytes.all imm8Ok
  | .decodeAll cps => cps.all CpOperand.wellFormed

/-- The code point of an operand: table operands are resolved against the configured tables (R82). -/
def CpOperand.resolve (T : Tables) : CpOperand → CodePoint
  | .num n => BitVec.ofNat 21 n
  | .main v => T.enc (BitVec.ofNat 11 v)
  | .tail j => T.tail (BitVec.ofNat 3 j)

/-- The word of `enc.byte <imm8>`. -/
def encByteWord (n : Nat) : Word := encode (.encByte (BitVec.ofNat 8 n))

/-- The word of `dec.sym <cp>`. -/
def decSymWord (T : Tables) (o : CpOperand) : Word := encode (.decSym (o.resolve T))

/-- The command words of a statement (R80, R81). -/
def Stmt.words (T : Tables) : Stmt → List Word
  | .encByte n => [encByteWord n]
  | .encEnd => [encode .encEnd]
  | .decSym o => [decSymWord T o]
  | .decEnd => [encode .decEnd]
  | .word n => [BitVec.ofNat 32 n]
  | .encodeAll bytes => bytes.map encByteWord ++ [encode .encEnd]
  | .decodeAll cps => cps.map (decSymWord T) ++ [encode .decEnd]

/-- Assembles a statement: an operand out of range is an assembly error (R80). -/
def assemble (T : Tables) (st : Stmt) : Except AsmError (List Word) :=
  if st.wellFormed then .ok (st.words T) else .error .operandRange

/-! Reading source text. -/

/-- White space inside a line. -/
def isBlank (c : Char) : Bool := c = ' ' || c = '\t' || c = '\r'

/-- Without the blanks at either end. -/
def trim (cs : List Char) : List Char := ((cs.dropWhile isBlank).reverse.dropWhile isBlank).reverse

/-- The line without its comment: `;` starts one (R80). -/
def stripComment (cs : List Char) : List Char := cs.takeWhile fun c => c ≠ ';'

/-- The pieces between the separators. -/
def splitAtSep (sep : Char) : List Char → List (List Char)
  | [] => [[]]
  | c :: cs =>
    match splitAtSep sep cs with
    | [] => [[c]]
    | w :: ws => if c = sep then [] :: w :: ws else (c :: w) :: ws

/-- The value of a digit in a base up to 16, capitals or not. -/
def digitValue (base : Nat) (c : Char) : Option Nat :=
  let d :=
    if '0' ≤ c ∧ c ≤ '9' then some (c.toNat - 48)
    else if 'a' ≤ c ∧ c ≤ 'f' then some (c.toNat - 87)
    else if 'A' ≤ c ∧ c ≤ 'F' then some (c.toNat - 55)
    else none
  d.bind fun n => if n < base then some n else none

/-- The number that follows digits of value `acc`. -/
def digitsFrom (base acc : Nat) : List Char → Option Nat
  | [] => some acc
  | c :: cs => (digitValue base c).bind fun d => digitsFrom base (acc * base + d) cs

/-- A number of at least one digit. -/
def digits (base : Nat) (cs : List Char) : Option Nat := if cs = [] then none else digitsFrom base 0 cs

/-- A number in decimal or as `0x` hex (R80). -/
def number (cs : List Char) : Option Nat :=
  match cs with
  | '0' :: 'x' :: ds => digits 16 ds
  | ds => digits 10 ds

/-- The number between the parentheses, the first of which has been read. -/
def parenthesised (cs : List Char) : Option Nat :=
  if cs.getLast? = some ')' then number cs.dropLast else none

/-- A `<cp>` operand: a number, `U+XXXX`, `M(v)` or `T(j)` (R80, R82). -/
def cpOperand (cs : List Char) : Option CpOperand :=
  match cs with
  | 'U' :: '+' :: ds => if 4 ≤ ds.length then (digits 16 ds).map CpOperand.num else none
  | 'M' :: '(' :: rest => (parenthesised rest).map CpOperand.main
  | 'T' :: '(' :: rest => (parenthesised rest).map CpOperand.tail
  | ds => (number ds).map CpOperand.num

/-- The statement a mnemonic and its operands make (R80, R81). That the operand of `.word` is written in decimal or as `0x`
hex, as R80 says of the other operands, is the model's choice (DESIGN CHOICE, log entry 14). -/
def statement (mnemonic : List Char) (ops : List (List Char)) : Except AsmError Stmt :=
  let need (o : Option Stmt) : Except AsmError Stmt := match o with
    | some st => .ok st
    | none => .error .badOperand
  if mnemonic = "enc.byte".toList then need (match ops with | [o] => (number o).map Stmt.encByte | _ => none)
  else if mnemonic = "enc.end".toList then need (if ops = [] then some .encEnd else none)
  else if mnemonic = "dec.sym".toList then need (match ops with | [o] => (cpOperand o).map Stmt.decSym | _ => none)
  else if mnemonic = "dec.end".toList then need (if ops = [] then some .decEnd else none)
  else if mnemonic = ".word".toList then need (match ops with | [o] => (number o).map Stmt.word | _ => none)
  else if mnemonic = "encode".toList then need ((ops.mapM number).map Stmt.encodeAll)
  else if mnemonic = "decode".toList then need ((ops.mapM cpOperand).map Stmt.decodeAll)
  else .error .unknownMnemonic

/-- The statement of a source line, none for a line that is blank or a comment (R80). -/
def parseLine (line : List Char) : Except AsmError (Option Stmt) :=
  let cs := trim (stripComment line)
  if cs = [] then .ok none
  else
    let mnemonic := cs.takeWhile fun c => !isBlank c
    let rest := trim (cs.drop mnemonic.length)
    let ops := if rest = [] then [] else (splitAtSep ',' rest).map trim
    (statement mnemonic ops).map some

/-- The words of a line. -/
def assembleLine (T : Tables) (line : List Char) : Except AsmError (List Word) :=
  match parseLine line with
  | .error e => .error e
  | .ok none => .ok []
  | .ok (some st) => assemble T st

/-- The words of lines, or the first line's error. -/
def assembleLines (T : Tables) : List (List Char) → Except AsmError (List Word)
  | [] => .ok []
  | l :: ls =>
    match assembleLine T l with
    | .error e => .error e
    | .ok ws =>
      match assembleLines T ls with
      | .error e => .error e
      | .ok rest => .ok (ws ++ rest)

/-- The words of a source text, one command per line (R80). -/
def assembleText (T : Tables) (src : String) : Except AsmError (List Word) :=
  assembleLines T (splitAtSep '\n' src.toList)

end Sys2Proof.Machine.Asm
end

