-- ==== Sys2Proof/Machine/Reference.lean ====
section
/-! DEFINITION. What the machine is compared with, written apart from it: the packed bit stream (spec/20_memory.md R58,
R59), the source's encoder under its literal branch condition (spec/40_encoder.md R106) and the source's whole-buffer
decoder (spec/41_decoder.md R139, the steps of R130 with the string's end known). -/

namespace Sys2Proof.Machine.Reference

/-- A byte's bits from bit 7 down to bit 0 (R58). -/
def byteBits (b : Byte) : List Bool :=
  [b.getLsbD 7, b.getLsbD 6, b.getLsbD 5, b.getLsbD 4, b.getLsbD 3, b.getLsbD 2, b.getLsbD 1, b.getLsbD 0]

/-- The bit stream of a byte buffer (R58). -/
def bitStream (bytes : List Byte) : List Bool := bytes.flatMap byteBits

/-- The number whose bits, the most significant first, are `bits`. -/
def bitsValue (bits : List Bool) : Nat := bits.foldl (fun n b => 2 * n + b.toNat) 0

/-- The symbols of a bit stream: each 11 bits a main symbol, the earliest bit its bit 10; the last `r` bits, right-aligned
with no padding, a tail symbol when `r` is 1 to 3 and a main symbol when it is 4 to 10 (R58, R59). -/
def packBits (T : Tables) : Nat → List Bool → List CodePoint
  | 0, _ => []
  | fuel + 1, bits =>
    if 11 ≤ bits.length then T.enc (BitVec.ofNat 11 (bitsValue (bits.take 11))) :: packBits T fuel (bits.drop 11)
    else if bits.length = 0 then []
    else if bits.length ≤ 3 then [T.tail (BitVec.ofNat 3 (bitsValue bits))]
    else [T.enc (BitVec.ofNat 11 (bitsValue bits))]

/-- The whole-buffer encoder as a statement about the bit stream; each round takes 11 bits, so the fuel suffices. -/
def encodeStream (T : Tables) (bytes : List Byte) : List CodePoint :=
  packBits T ((bitStream bytes).length + 1) (bitStream bytes)

/-- The source's encoder with the literal branch `need < 8` (machine B of R106): the symbols of the bytes that follow
when `rem` bits of value `stage` are buffered, then the final flush. -/
def encodeLiteralFrom (T : Tables) (stage rem : Nat) : List Byte → List CodePoint
  | [] =>
    if rem = 0 then []
    else if rem ≤ 3 then [T.tail (BitVec.ofNat 3 stage)]
    else [T.enc (BitVec.ofNat 11 stage)]
  | b :: bs =>
    if 11 - rem < 8 then
      T.enc (BitVec.ofNat 11 (stage * 2 ^ (11 - rem) + b.toNat / 2 ^ (8 - (11 - rem)))) ::
        encodeLiteralFrom T (b.toNat % 2 ^ (8 - (11 - rem))) (8 - (11 - rem)) bs
    else encodeLiteralFrom T (stage * 2 ^ 8 + b.toNat) (rem + 8) bs

/-- `encode(B)` under the literal reading. -/
def encodeLiteral (T : Tables) (bytes : List Byte) : List CodePoint := encodeLiteralFrom T 0 0 bytes

/-- The smallest tail index of a code point, as a number (R55). -/
def tailIndexNat (T : Tables) (c : CodePoint) : Option Nat :=
  (List.range 8).find? fun j => decide (T.tail (BitVec.ofNat 3 j) = c)

/-- The bits a symbol supplies and their value, or the number of the check it fails (steps 2 to 4 of R130). -/
def symbolBits (T : Tables) (residue rem : Nat) (c : CodePoint) (last : Bool) : Except Nat (Nat × Nat) :=
  if c.toNat > T.maxCp.toNat then .error 1
  else
    match T.dec c with
    | .data v => .ok (if last then 11 - residue else 11, v.toNat)
    | .term =>
      if !last then .error 2
      else
        match tailIndexNat T c with
        | none => .error 3
        | some t => if t ≥ 2 ^ (8 - rem) then .error 4 else .ok (8 - rem, t)

/-- The whole bytes of `r` buffered bits of value `acc`, while more than 8 are left, and what is left (step 6 of R130,
written with `/` and `%`; `fuel` bounds the rounds). -/
def wholeBytes : Nat → Nat → Nat → List Byte × Nat × Nat
  | 0, acc, r => ([], acc, r)
  | fuel + 1, acc, r =>
    if r ≤ 8 then ([], acc, r)
    else
      let rest := wholeBytes fuel (acc % 2 ^ (r - 8)) (r - 8)
      (BitVec.ofNat 8 (acc / 2 ^ (r - 8)) :: rest.1, rest.2)

/-- How a whole-buffer decode ends: with bytes, or with the number of a check, a position and a code point. -/
inductive Verdict where
  | ok
  | fail (code : Nat) (pos : Nat) (cp : CodePoint)
deriving DecidableEq, Repr

/-- The source's §4.2 on the symbols from position `pos` on: the bytes it emits in order, and how it ends. The last
symbol is the one with none after it. -/
def decodeFrom (T : Tables) (stage rem residue pos : Nat) : List CodePoint → List Byte × Verdict
  | [] => ([], .ok)
  | [c] =>
    match symbolBits T ((residue + 11) % 8) rem c true with
    | .error code => ([], .fail code pos c)
    | .ok (k, v) =>
      let d := wholeBytes 2 (stage * 2 ^ k ||| v) (rem + k)
      (d.1 ++ (if d.2.2 > 0 then [BitVec.ofNat 8 (d.2.1 / 2 ^ (8 - d.2.2))] else []), .ok)
  | c :: c' :: cs =>
    match symbolBits T ((residue + 11) % 8) rem c false with
    | .error code => ([], .fail code pos c)
    | .ok (k, v) =>
      let d := wholeBytes 2 (stage * 2 ^ k ||| v) (rem + k)
      let rest := decodeFrom T d.2.1 d.2.2 ((residue + 11) % 8) (pos + 1) (c' :: cs)
      (d.1 ++ rest.1, rest.2)

/-- The source's whole-buffer decoder on a symbol string. -/
def decodeWhole (T : Tables) (cps : List CodePoint) : List Byte × Verdict := decodeFrom T 0 0 0 0 cps

end Sys2Proof.Machine.Reference
end

