-- ==== Sys2Proof/Machine/Parametric.lean ====
section
/-! DEFINITION. The machine over any tables (spec/00_scope.md R7: "The model takes these parameters as arguments").
`exec` and `step` are the instance at `Config.tables`; a claim that needs a premise on the tables (WF_TABLES,
spec/20_memory.md R56) is stated of the machine over tables `T`. -/

namespace Sys2Proof.Machine

/-- The effect of a command over tables `T`. -/
def effectWith (T : Tables) : Instr → State → State
  | .encByte b => encByteEffect T b
  | .encEnd => encEndEffect T
  | .decSym c => decSymEffect T c
  | .decEnd => decEndEffect T

/-- `exec` over tables `T`. -/
def execWith (T : Tables) (i : Instr) (s : State) : Host.Outcome State Fault Refusal := .next (effectWith T i s)

/-- `step` over tables `T`. -/
def stepWith (T : Tables) (s : State) : Host.Outcome State Fault Refusal := stepUsing (execWith T) s

/-- The machine over tables `T`, in the host's form. -/
def coreWith (T : Tables) : Host.Core :=
  { State := State, Fault := Fault, Refusal := Refusal, step := stepWith T, reset := State.reset }

/-- What one host event does to the block over tables `T`. -/
def eventEffect (T : Tables) : HostEvent → State → State
  | .reset, s => applyReset s
  | .word w, s =>
    match decode w with
    | .ok i => effectWith T i s
    | .error _ => s.setCmdFault

/-- A run: a finite sequence of commands and resets, in the order presented (spec/70_reset_and_hazards.md R211,
spec/20_memory.md R64). -/
def runEvents (T : Tables) (es : List HostEvent) (s : State) : State := es.foldl (fun s e => eventEffect T e s) s

/-- The effects of legal commands, one after another. -/
def applyCommands (T : Tables) (is : List Instr) (s : State) : State := is.foldl (fun s i => effectWith T i s) s

/-- A legal command as the host presents it. -/
def commandEvent (i : Instr) : HostEvent := .word (encode i)

/-- A command of the encoder engine (spec/30_encoding.md R74, column "engine"). -/
def isEncCommand : Instr → Bool
  | .encByte _ => true
  | .encEnd => true
  | .decSym _ => false
  | .decEnd => false

/-- A host event the encoder engine acts on: one of its commands, or reset. -/
def isEncEvent : HostEvent → Bool
  | .reset => true
  | .word w =>
    match decode w with
    | .ok i => isEncCommand i
    | .error _ => false

/-- A host event the decoder engine acts on: one of its commands, or reset. -/
def isDecEvent : HostEvent → Bool
  | .reset => true
  | .word w =>
    match decode w with
    | .ok i => !isEncCommand i
    | .error _ => false

end Sys2Proof.Machine
end

