-- ==== Sys2Proof/Machine/Calls.lean ====
section
/-! DEFINITION. Calls and their results: the call functions `encode(B)` (spec/40_encoder.md R104) and `decode(C)`
(spec/41_decoder.md R139), and how the host reads results off the token streams (spec/30_encoding.md R77, R78;
spec/70_reset_and_hazards.md R211). -/

namespace Sys2Proof.Machine

/-- The commands of one encode call (decision D6; pseudo-instruction `encode`, spec/30_encoding.md R81). -/
def encodeCommands (bytes : List Byte) : List Instr := bytes.map Instr.encByte ++ [.encEnd]

/-- The commands of one decode call (decision D6; pseudo-instruction `decode`, R81). -/
def decodeCommands (cps : List CodePoint) : List Instr := cps.map Instr.decSym ++ [.decEnd]

/-- The code points of the Sym tokens. -/
def symsOf (ts : List EncToken) : List CodePoint :=
  ts.filterMap fun
    | .sym cp => some cp
    | .encDone => none

/-- The values of the Byte tokens. -/
def bytesOf (ts : List DecToken) : List Byte :=
  ts.filterMap fun
    | .byte b => some b
    | .decDone _ => none

/-- The tokens of an encode call of `bytes`, begun at `ENC_INIT`. -/
def encodeTokens (T : Tables) (bytes : List Byte) : List EncToken :=
  (applyCommands T (encodeCommands bytes) State.reset).enc_out

/-- `encode(B)` (spec/40_encoder.md R104). -/
def encodeCall (T : Tables) (bytes : List Byte) : List CodePoint := symsOf (encodeTokens T bytes)

/-- `decode(C)` (spec/41_decoder.md R139): the call's Byte tokens and its DecDone, begun at `DEC_INIT`. -/
def decodeCall (T : Tables) (cps : List CodePoint) : List DecToken :=
  (applyCommands T (decodeCommands cps) State.reset).dec_out

/-- What the host meets in a run, seen from one stream: a token it receives, or a reset it asserts. -/
inductive Seen (α : Type) where
  | token (t : α)
  | reset
deriving DecidableEq, Repr

/-- What one host event adds to what the host has met of the stream `out`: the reset itself, or the tokens the word
appended. -/
def eventSeen {α : Type} (out : State → List α) (T : Tables) (e : HostEvent) (s : State) : List (Seen α) :=
  match e with
  | .reset => [.reset]
  | .word w => ((out (eventEffect T (.word w) s)).drop (out s).length).map Seen.token

/-- The tokens of the stream `out` in a run, the first one first, with the resets where they fell among them
(spec/70_reset_and_hazards.md R211). -/
def runSeen {α : Type} (out : State → List α) (T : Tables) : List HostEvent → State → List (Seen α)
  | [], _ => []
  | e :: es, s => eventSeen out T e s ++ runSeen out T es (eventEffect T e s)

/-- The tokens alone. -/
def seenTokens {α : Type} (ts : List (Seen α)) : List α :=
  ts.filterMap fun
    | .token t => some t
    | .reset => none

/-- The strings of the encode calls that have ended, the first one first; `acc` holds the symbols since the last EncDone or
reset. A reset voids them, and symbols with no EncDone after them belong to no result
(spec/70_reset_and_hazards.md R201, R211). -/
def encResultsFrom : List CodePoint → List (Seen EncToken) → List (List CodePoint)
  | _, [] => []
  | acc, .token (.sym cp) :: ts => encResultsFrom (acc ++ [cp]) ts
  | acc, .token .encDone :: ts => acc :: encResultsFrom [] ts
  | _, .reset :: ts => encResultsFrom [] ts

/-- The results of the encode calls in `ts` (spec/30_encoding.md R77). -/
def encResults (ts : List (Seen EncToken)) : List (List CodePoint) := encResultsFrom [] ts

/-- The result of a decode call: its bytes, or its error. Bytes emitted before the error are void
(spec/60_exceptions.md R181). -/
inductive DecResult where
  | bytes (bs : List Byte)
  | error (code : ErrCode) (pos : Pos) (cp : CodePoint)
deriving DecidableEq, Repr

/-- The result a DecDone gives the bytes before it. -/
def decResultOf (acc : List Byte) : Status → DecResult
  | .ok => .bytes acc
  | .err code pos cp => .error code pos cp

/-- The results of the decode calls that have ended; `acc` holds the bytes since the last DecDone or reset. A reset voids
them (spec/70_reset_and_hazards.md R201). -/
def decResultsFrom : List Byte → List (Seen DecToken) → List DecResult
  | _, [] => []
  | acc, .token (.byte b) :: ts => decResultsFrom (acc ++ [b]) ts
  | acc, .token (.decDone st) :: ts => decResultOf acc st :: decResultsFrom [] ts
  | _, .reset :: ts => decResultsFrom [] ts

/-- The results of the decode calls in `ts` (spec/30_encoding.md R78). -/
def decResults (ts : List (Seen DecToken)) : List DecResult := decResultsFrom [] ts

/-- The results of the encode calls of a run (spec/70_reset_and_hazards.md R211), from a state in which no encode call is in
progress. -/
def runEncResults (T : Tables) (es : List HostEvent) (s : State) : List (List CodePoint) :=
  encResults (runSeen State.enc_out T es s)

/-- The results of the decode calls of a run (R211), from a state in which no decode call is in progress. -/
def runDecResults (T : Tables) (es : List HostEvent) (s : State) : List DecResult :=
  decResults (runSeen State.dec_out T es s)

/-- What a run shows: the two streams and the fault flag (spec/70_reset_and_hazards.md R211). -/
def State.observation (s : State) : List EncToken × List DecToken × Bool := (s.enc_out, s.dec_out, s.cmd_fault)

end Sys2Proof.Machine
end

