-- ==== Sys2Proof/Safety.lean ====
section
/-! DEFINITION. The legal states between commands (spec/10_state.md R20 to R28; spec/40_encoder.md R102;
spec/41_decoder.md R133, R134) and what a run must not have done (spec/60_exceptions.md R183). -/

namespace Sys2Proof.Machine

namespace State

/-- `e_stage < 2^e_rem` (spec/10_state.md R21, spec/40_encoder.md R102). -/
abbrev EncLegal (s : State) : Prop := s.e_stage.toNat < 2 ^ s.e_rem.val

/-- `d_stage < 2^d_rem` (spec/10_state.md R23, spec/41_decoder.md R134). -/
abbrev DecLegal (s : State) : Prop := s.d_stage.toNat < 2 ^ s.d_rem.val

/-- `d_rem` and the residue count the same bits modulo 8 (both grow by 11 for each symbol that is not the last,
spec/41_decoder.md R135). -/
abbrev RemFollowsResidue (s : State) : Prop := s.d_rem.val % 8 = s.d_residue.val

/-- The residue is that of the `d_count - 1` symbols processed so far (spec/41_decoder.md R133). -/
abbrev ResidueFollowsCount (s : State) : Prop :=
  s.d_pend_valid = true → s.d_residue.val = 3 * (pendPos s).toNat % 8

/-- Nothing buffered means nothing processed yet. -/
abbrev EmptyMeansFirst (s : State) : Prop := s.d_rem.val = 0 → s.d_count.toNat ≤ 1

/-- With no symbol pending the decoder is in `DEC_INIT` (spec/10_state.md R38; only DEC_SYM makes a symbol pending). -/
abbrev IdleMeansInit (s : State) : Prop := s.d_pend_valid = false → s.decInit = s

/-- The error latch holds the pending symbol's position and code point, and only an error DEC_SYM can raise
(spec/60_exceptions.md R171, R178); it is clear while there is no error. -/
abbrev LatchLegal (s : State) : Prop :=
  (s.d_err = none → s.d_err_pos = 0#32 ∧ s.d_err_cp = 0#21) ∧
  (s.d_err ≠ none → s.d_pend_valid = true ∧ s.d_err_pos = pendPos s ∧ s.d_err_cp = s.d_pend_cp) ∧
  s.d_err ≠ some .invalidTerminationCharacter ∧ s.d_err ≠ some .invalidTailCharacter

/-- The legal states between commands. Every reachable state is one; the claims that need it name it as a premise
(spec/93_implementation_defined.md I12 to I15: "the model excludes the case, by type or by premise"). -/
abbrev Inv (s : State) : Prop :=
  s.EncLegal ∧ s.DecLegal ∧ s.RemFollowsResidue ∧ s.ResidueFollowsCount ∧ s.EmptyMeansFirst ∧ s.IdleMeansInit ∧
    s.LatchLegal

/-- The run that led here presented no illegal word since the last reset: `cmd_fault = 1` records a fault
(spec/60_exceptions.md R183). -/
abbrev Unfaulted (s : State) : Prop := s.cmd_fault = false

/-- The encoder is in `ENC_INIT` (spec/10_state.md R38). -/
abbrev EncAtInit (s : State) : Prop := s.e_stage = 0#10 ∧ s.e_rem = 0

/-- The decoder is in `DEC_INIT` (R38). -/
abbrev DecAtInit (s : State) : Prop :=
  s.d_stage = 0#8 ∧ s.d_rem = 0 ∧ s.d_residue = 0 ∧ s.d_pend_valid = false ∧ s.d_pend_cp = 0#21 ∧ s.d_count = 0#32 ∧
    s.d_err = none ∧ s.d_err_pos = 0#32 ∧ s.d_err_cp = 0#21

/-- The two states agree on every encoder register and on the encoder's stream. -/
abbrev SameEncoder (s t : State) : Prop := t.e_stage = s.e_stage ∧ t.e_rem = s.e_rem ∧ t.enc_out = s.enc_out

/-- The two states agree on every decoder register and on the decoder's stream. -/
abbrev SameDecoder (s t : State) : Prop :=
  t.d_stage = s.d_stage ∧ t.d_rem = s.d_rem ∧ t.d_residue = s.d_residue ∧ t.d_pend_valid = s.d_pend_valid ∧
    t.d_pend_cp = s.d_pend_cp ∧ t.d_count = s.d_count ∧ t.d_err = s.d_err ∧ t.d_err_pos = s.d_err_pos ∧
    t.d_err_cp = s.d_err_cp ∧ t.dec_out = s.dec_out

end State

end Sys2Proof.Machine
end

