-- ==== Sys2Proof/Certificates/Slice0/Obligations.lean ====
section
/-! DEFINITION. The statements for the provers. Names of rules are those of spec/. A statement that needs a premise on the
tables, or has a clause for a table's entry, is stated of the machine over any tables `T` (`execWith`, `effectWith`) and
says that `exec` is its instance at `Config.tables`. -/

open Sys2Proof Sys2Proof.Machine

/-! Encoding -/

/-- Words of the vectors V-C1 (spec/95_test_vectors.md 2.1), one for each command and some illegal ones. -/
def Obligations.SampleWordsDecode : Prop :=
  decode 0x010000A5#32 = .ok (.encByte 0xA5#8) ∧ decode 0x01000000#32 = .ok (.encByte 0x00#8) ∧
  decode 0x02000000#32 = .ok .encEnd ∧ decode 0x10000000#32 = .ok (.decSym 0#21) ∧
  decode 0x101FFFFF#32 = .ok (.decSym 0x1FFFFF#21) ∧ decode 0x11000000#32 = .ok .decEnd ∧
  (∃ e, decode 0x00000000#32 = .error e) ∧ (∃ e, decode 0x01000100#32 = .error e) ∧
  (∃ e, decode 0x01200000#32 = .error e) ∧ (∃ e, decode 0x02000001#32 = .error e) ∧
  (∃ e, decode 0x10200000#32 = .error e) ∧ (∃ e, decode 0x11000001#32 = .error e) ∧
  (∃ e, decode 0x03000000#32 = .error e)

/-- Decoding the word of a well-formed command gives the command back, whatever its operand (spec/30_encoding.md R74). -/
def Obligations.DecodeOfEncodeIsTheCommand : Prop :=
  ∀ i : Instr, i.wellFormed = true → decode (encode i) = .ok i

/-- A word that decodes to a command is that command's word: no bit of it is ignored (spec/30_encoding.md R74, R76: "no
reserved-but-ignored encodings"). -/
def Obligations.WordOfADecodedCommand : Prop :=
  ∀ (w : Word) (i : Instr), decode w = .ok i → encode i = w

/-- R75 with the match and mask of each row of R74: a word matches a row exactly when it decodes to that row's command,
with `w[7:0]` or `w[20:0]` as its operand, and it decodes to nothing else. -/
def Obligations.OperandsAreTheWordsLowBits : Prop :=
  ∀ w : Word,
    (w &&& 0xFFFFFF00#32 = 0x01000000#32 ↔ decode w = .ok (.encByte (w.extractLsb' 0 8))) ∧
    (w &&& 0xFFFFFFFF#32 = 0x02000000#32 ↔ decode w = .ok .encEnd) ∧
    (w &&& 0xFFE00000#32 = 0x10000000#32 ↔ decode w = .ok (.decSym (w.extractLsb' 0 21))) ∧
    (w &&& 0xFFFFFFFF#32 = 0x11000000#32 ↔ decode w = .ok .decEnd) ∧
    ∀ i, decode w = .ok i →
      i = .encByte (w.extractLsb' 0 8) ∨ i = .encEnd ∨ i = .decSym (w.extractLsb' 0 21) ∨ i = .decEnd

/-- R76: a word that matches no row of R74 sets `cmd_fault` and changes nothing else; the all-zero word and any other
opcode are such words, and no word matches two rows. -/
def Obligations.IllegalWordSetsOnlyTheFaultFlag : Prop :=
  (∀ (s : State) (w : Word) (rest : List HostEvent), s.port = .word w :: rest →
    (∀ r ∈ opcodeTable, w &&& r.mask ≠ r.pattern) →
    step s = .next { s with port := rest, cmd_fault := true }) ∧
  (∀ w : Word, opcodeOf w ∉ usedOpcodes → ∀ r ∈ opcodeTable, w &&& r.mask ≠ r.pattern) ∧
  (∀ r ∈ opcodeTable, 0#32 &&& r.mask ≠ r.pattern) ∧
  (∀ w : Word, ∀ r ∈ opcodeTable, ∀ r' ∈ opcodeTable,
    w &&& r.mask = r.pattern → w &&& r'.mask = r'.pattern → r = r')

/-! The step -/

/-- A step runs the command the word at the port decodes to, in the state with that word taken from the port; the step
adds nothing else (R64, R62). -/
def Obligations.StepRunsTheDecodedCommand : Prop :=
  ∀ (s : State) (w : Word) (rest : List HostEvent) (i : Instr),
    s.port = .word w :: rest → decode w = .ok i → step s = exec i { s with port := rest }

/-- With nothing presented a step changes nothing. This is the model's choice (log entry 2), not a rule of the spec. -/
def Obligations.StepWaitsWithNothingPresented : Prop :=
  ∀ s : State, s.port = [] → step s = .next s

/-- `exec` is the machine over the tables of Config. -/
def Obligations.ExecIsTheMachineOverItsTables : Prop :=
  (∀ (i : Instr) (s : State), exec i s = execWith Config.tables i s) ∧
  (∀ s : State, step s = stepWith Config.tables s)

/-- Every command completes and every step does. On legal states R170 says so ("every legal command on a legal state, has a
defined result"). That commands complete on the other states too is the model's choice (log entry 8), and so is that a step
with nothing presented answers a state (log entry 2). -/
def Obligations.EveryCommandCompletes : Prop :=
  (∀ (b : Byte) (s : State), ∃ t, exec (.encByte b) s = .next t) ∧
  (∀ s : State, ∃ t, exec .encEnd s = .next t) ∧
  (∀ (c : CodePoint) (s : State), ∃ t, exec (.decSym c) s = .next t) ∧
  (∀ s : State, ∃ t, exec .decEnd s = .next t) ∧
  (∀ s : State, ∃ t, step s = .next t)

/-- R200 and R39: reset writes every register to its reset value, emits no token and leaves both streams as they are. -/
def Obligations.ResetEventWritesEveryRegister : Prop :=
  ∀ (s : State) (rest : List HostEvent), s.port = .reset :: rest →
    step s = .next
      { e_stage := 0#10, e_rem := 0, d_stage := 0#8, d_rem := 0, d_residue := 0, d_pend_valid := false,
        d_pend_cp := 0#21, d_count := 0#32, d_err := none, d_err_pos := 0#32, d_err_cp := 0#21, cmd_fault := false,
        enc_out := s.enc_out, dec_out := s.dec_out, port := rest }

/-- The registers of `State.reset` hold the reset column of the table of R20. That the streams and the port are empty in it
is the model's choice (log entries 4 and 9). -/
def Obligations.ResetStateHoldsTheResetValues : Prop :=
  State.reset.EncAtInit ∧ State.reset.DecAtInit ∧ State.reset.cmd_fault = false ∧
  State.reset.enc_out = [] ∧ State.reset.dec_out = [] ∧ State.reset.port = []

/-- R29: an illegal word sets `cmd_fault`, no command clears it, only reset does. (A step with nothing presented is
`StepWaitsWithNothingPresented`.) -/
def Obligations.OnlyResetClearsTheFaultFlag : Prop :=
  ∀ (s : State) (rest : List HostEvent),
    (s.port = .reset :: rest → ∃ t, step s = .next t ∧ t.cmd_fault = false) ∧
    (∀ w, s.port = .word w :: rest → ∃ t, step s = .next t ∧
      ((∃ i, decode w = .ok i) → t.cmd_fault = s.cmd_fault) ∧ ((¬ ∃ i, decode w = .ok i) → t.cmd_fault = true))

/-- R30: a step only appends to the streams, reads no token of them (what it appends and writes does not depend on what is
there), and reset leaves them as they are. -/
def Obligations.StreamsAreAppendOnly : Prop :=
  ∀ s : State, ∃ (t : State) (es : List EncToken) (ds : List DecToken),
    step s = .next t ∧ t.enc_out = s.enc_out ++ es ∧ t.dec_out = s.dec_out ++ ds ∧
    (∀ (xs : List EncToken) (ys : List DecToken),
      step { s with enc_out := xs, dec_out := ys } = .next { t with enc_out := xs ++ es, dec_out := ys ++ ds }) ∧
    (∀ rest, s.port = .reset :: rest → es = [] ∧ ds = [])

/-! The encoder -/

/-- R100 (ENC_BYTE), in legal encoder states: with `need = 11 - e_rem` at most 8 the byte completes an 11-bit index and one
Sym token leaves; otherwise the whole byte is folded in. No other register changes. -/
def Obligations.EncByteResult : Prop :=
  (∀ w : Word, w &&& 0xFFFFFF00#32 = 0x01000000#32 → decode w = .ok (.encByte (w.extractLsb' 0 8))) ∧
  ∀ (b : Byte) (s : State), s.EncLegal →
    ∃ t, exec (.encByte b) s = .next t ∧
      t = { s with e_stage := t.e_stage, e_rem := t.e_rem, enc_out := t.enc_out } ∧
      (11 - s.e_rem.val ≤ 8 →
        t.e_rem.val = 8 - (11 - s.e_rem.val) ∧
        t.e_stage.toNat = b.toNat &&& (2 ^ (8 - (11 - s.e_rem.val)) - 1) ∧
        ∃ idx : SymValue,
          idx.toNat = (s.e_stage.toNat <<< (11 - s.e_rem.val)) ||| (b.toNat >>> (8 - (11 - s.e_rem.val))) ∧
          t.enc_out = s.enc_out ++ [.sym (Config.tables.enc idx)]) ∧
      (8 < 11 - s.e_rem.val →
        t.e_rem.val = s.e_rem.val + 8 ∧ t.e_stage.toNat = (s.e_stage.toNat <<< 8) ||| b.toNat ∧
        t.enc_out = s.enc_out)

/-- R101 (ENC_END), in legal encoder states: no symbol, a tail symbol or a main symbol whose index is the buffered value,
then EncDone, then `ENC_INIT`. No other register changes. -/
def Obligations.EncEndResult : Prop :=
  decode 0x02000000#32 = .ok .encEnd ∧
  ∀ s : State, s.EncLegal →
    ∃ t, exec .encEnd s = .next t ∧ t = { s with e_stage := 0#10, e_rem := 0, enc_out := t.enc_out } ∧
      (s.e_rem.val = 0 → t.enc_out = s.enc_out ++ [.encDone]) ∧
      (0 < s.e_rem.val → s.e_rem.val ≤ 3 →
        ∃ j : TailIndex, j.toNat = s.e_stage.toNat ∧
          t.enc_out = s.enc_out ++ [.sym (Config.tables.tail j), .encDone]) ∧
      (4 ≤ s.e_rem.val →
        ∃ v : SymValue, v.toNat = s.e_stage.toNat ∧
          t.enc_out = s.enc_out ++ [.sym (Config.tables.enc v), .encDone])

/-- R71: a full symbol's index is the `e_rem` buffered bits on top, then the top `need` bits of the byte (bit `k` of the
index is bit `k + leftover` of the byte below `need`, bit `k - need` of `e_stage` above), which is
`(e_stage << need) | (b >> leftover)`; the final symbol's index is `e_stage`, zero-extended and not shifted. -/
def Obligations.IndexIsBufferedBitsThenByteBits : Prop :=
  (∀ (b : Byte) (s : State), s.EncLegal → 3 ≤ s.e_rem.val →
    ∃ (t : State) (idx : SymValue), exec (.encByte b) s = .next t ∧
      t.enc_out = s.enc_out ++ [.sym (Config.tables.enc idx)] ∧
      idx.toNat = (s.e_stage.toNat <<< (11 - s.e_rem.val)) ||| (b.toNat >>> (8 - (11 - s.e_rem.val))) ∧
      ∀ k < 11, idx.getLsbD k =
        if k < 11 - s.e_rem.val then b.getLsbD (k + (8 - (11 - s.e_rem.val)))
        else s.e_stage.getLsbD (k - (11 - s.e_rem.val))) ∧
  (∀ s : State, s.EncLegal → 0 < s.e_rem.val →
    ∃ t : State, exec .encEnd s = .next t ∧
      ((s.e_rem.val ≤ 3 ∧ ∃ j : TailIndex, j.toNat = s.e_stage.toNat ∧
          t.enc_out = s.enc_out ++ [.sym (Config.tables.tail j), .encDone]) ∨
       (4 ≤ s.e_rem.val ∧ ∃ v : SymValue, v.toNat = s.e_stage.toNat ∧
          t.enc_out = s.enc_out ++ [.sym (Config.tables.enc v), .encDone])))

/-- R182 and the frame of ENC_BYTE and ENC_END: no DecodeError is raised and `cmd_fault` is not set; every decoder register,
the decoder's stream and the port stay as they are, and the encoder's stream only grows. -/
def Obligations.EncoderCommandsFrame : Prop :=
  ∀ (i : Instr) (s : State), isEncCommand i = true →
    ∃ t, exec i s = .next t ∧ s.SameDecoder t ∧ t.cmd_fault = s.cmd_fault ∧ t.port = s.port ∧
      ∃ ts, t.enc_out = s.enc_out ++ ts

/-- Emission counts of the encoder (the spec's own derivation, R103): ENC_BYTE one Sym exactly when `e_rem >= 3`, ENC_END
at most one Sym, then one EncDone. -/
def Obligations.EncoderEmissionCounts : Prop :=
  (∀ (b : Byte) (s : State), ∃ t, exec (.encByte b) s = .next t ∧
    ((3 ≤ s.e_rem.val ∧ ∃ cp, t.enc_out = s.enc_out ++ [.sym cp]) ∨ (s.e_rem.val ≤ 2 ∧ t.enc_out = s.enc_out))) ∧
  (∀ s : State, ∃ t, exec .encEnd s = .next t ∧
    ((∃ cp, t.enc_out = s.enc_out ++ [.sym cp, .encDone]) ∨ t.enc_out = s.enc_out ++ [.encDone]))

/-- Alphabet closure of the encoder (the spec's own derivation, R107): every Sym token of a run carries an entry of
`ENC_TABLE` or of `TAIL_TABLE`, or was there before. -/
def Obligations.EncoderEmitsOnlyTheAlphabets : Prop :=
  ∀ (T : Tables) (es : List HostEvent) (s : State) (cp : CodePoint),
    EncToken.sym cp ∈ (runEvents T es s).enc_out →
      EncToken.sym cp ∈ s.enc_out ∨ (∃ v : SymValue, cp = T.enc v) ∨ (∃ j : TailIndex, cp = T.tail j)

/-! The decoder -/

/-- The checks of PROCESS in the order of R176: the first that fails is the one raised; a raise latches the code, the
position and the code point and writes nothing else; a symbol that passes them leaves the latch as it is. -/
def Obligations.ProcessRaisesTheFirstFailedCheck : Prop :=
  ∀ (T : Tables) (c : CodePoint) (i : Pos) (last : Bool) (s : State),
    (T.maxCp < c →
      process T c i last s = { s with d_err := some .invalidCharacter, d_err_pos := i, d_err_cp := c }) ∧
    (c ≤ T.maxCp → T.dec c = .term → last = false →
      process T c i last s = { s with d_err := some .unexpectedAfterTerminator, d_err_pos := i, d_err_cp := c }) ∧
    (c ≤ T.maxCp → T.dec c = .term → last = true → (∀ j, T.tail j ≠ c) →
      process T c i last s = { s with d_err := some .invalidTerminationCharacter, d_err_pos := i, d_err_cp := c }) ∧
    (∀ j : TailIndex, c ≤ T.maxCp → T.dec c = .term → last = true → T.tail j = c → (∀ j' < j, T.tail j' ≠ c) →
      (2 ^ (8 - s.d_rem.val) ≤ j.toNat →
        process T c i last s = { s with d_err := some .invalidTailCharacter, d_err_pos := i, d_err_cp := c }) ∧
      (j.toNat < 2 ^ (8 - s.d_rem.val) → (process T c i last s).d_err = s.d_err)) ∧
    (∀ v : SymValue, c ≤ T.maxCp → T.dec c = .data v → (process T c i last s).d_err = s.d_err)

/-- R172: code 1 is raised exactly when the code point exceeds `MAXCP`; with `MAXCP = 4339`, which is this machine's
(R7), 4339 passes and 4340 fails. -/
def Obligations.InvalidCharacterMeansAboveMaxcp : Prop :=
  (∀ (T : Tables) (c : CodePoint) (last : Bool) (res : Fin 8) (rem : Fin 9),
    checkSymbol T c last res rem = .error .invalidCharacter ↔ T.maxCp.toNat < c.toNat) ∧
  (∀ (T : Tables) (last : Bool) (res : Fin 8) (rem : Fin 9), T.maxCp = 4339#21 →
    checkSymbol T 4339#21 last res rem ≠ .error .invalidCharacter ∧
    checkSymbol T 4340#21 last res rem = .error .invalidCharacter) ∧
  Config.tables.maxCp = 4339#21

/-- The codes of R171 and who raises them: 1 to 4 in the listed order, 0 for none, 5 to 7 never; a DEC_SYM latches only
codes 1 and 2; a DEC_END that finds no error latched reports only codes 1, 3 and 4. -/
def Obligations.ErrorCodesAndWhoRaisesThem : Prop :=
  errBits none = 0#3 ∧ errBits (some .invalidCharacter) = 1#3 ∧ errBits (some .unexpectedAfterTerminator) = 2#3 ∧
  errBits (some .invalidTerminationCharacter) = 3#3 ∧ errBits (some .invalidTailCharacter) = 4#3 ∧
  (∀ e : Option ErrCode, (errBits e).toNat ≤ 4) ∧
  (∀ (T : Tables) (c : CodePoint) (s : State) (code : ErrCode), s.d_err = none →
    (effectWith T (.decSym c) s).d_err = some code →
      (code = .invalidCharacter ∨ code = .unexpectedAfterTerminator) ∧
      (effectWith T (.decSym c) s).d_err_pos = s.d_count - 1#32 ∧
      (effectWith T (.decSym c) s).d_err_cp = s.d_pend_cp) ∧
  (∀ (T : Tables) (s : State) (ts : List DecToken) (code : ErrCode) (pos : Pos) (cp : CodePoint), s.d_err = none →
    (effectWith T .decEnd s).dec_out = s.dec_out ++ ts ++ [.decDone (.err code pos cp)] →
      (code = .invalidCharacter ∨ code = .invalidTerminationCharacter ∨ code = .invalidTailCharacter) ∧
      pos = s.d_count - 1#32 ∧ cp = s.d_pend_cp)

/-- R131 (DEC_SYM), in legal decoder states. A failed call: nothing happens. No symbol pending: `c` is held. A pending
symbol above `MAXCP` or a pending terminator: the error is latched and `c` discarded. A pending data symbol: its 11 bits are
merged, the whole bytes leave (one with `d_rem <= 5`, two with `d_rem >= 6`), the rest is kept, and `c` is held. -/
def Obligations.DecSymResult : Prop :=
  (∀ w : Word, w &&& 0xFFE00000#32 = 0x10000000#32 → decode w = .ok (.decSym (w.extractLsb' 0 21))) ∧
  ∀ (T : Tables) (c : CodePoint) (s : State), s.DecLegal →
    ∃ t, execWith T (.decSym c) s = .next t ∧ (T = Config.tables → exec (.decSym c) s = .next t) ∧
      (s.d_err ≠ none → t = s) ∧
      (s.d_err = none → s.d_pend_valid = false →
        t = { s with d_pend_cp := c, d_pend_valid := true, d_count := s.d_count + 1#32 }) ∧
      (s.d_err = none → s.d_pend_valid = true →
        (T.maxCp < s.d_pend_cp →
          t = { s with d_err := some .invalidCharacter, d_err_pos := s.d_count - 1#32, d_err_cp := s.d_pend_cp }) ∧
        (s.d_pend_cp ≤ T.maxCp → T.dec s.d_pend_cp = .term →
          t = { s with d_err := some .unexpectedAfterTerminator, d_err_pos := s.d_count - 1#32,
                       d_err_cp := s.d_pend_cp }) ∧
        (∀ v : SymValue, s.d_pend_cp ≤ T.maxCp → T.dec s.d_pend_cp = .data v →
          t = { s with d_stage := t.d_stage, d_rem := t.d_rem, d_residue := t.d_residue, dec_out := t.dec_out,
                       d_pend_cp := c, d_pend_valid := true, d_count := s.d_count + 1#32 } ∧
          t.d_residue.val = (s.d_residue.val + 11) % 8 ∧
          (s.d_rem.val ≤ 5 →
            t.d_rem.val = s.d_rem.val + 3 ∧
            t.d_stage.toNat = (s.d_stage.toNat * 2 ^ 11 + v.toNat) % 2 ^ (s.d_rem.val + 3) ∧
            ∃ b : Byte, b.toNat = (s.d_stage.toNat * 2 ^ 11 + v.toNat) / 2 ^ (s.d_rem.val + 3) ∧
              t.dec_out = s.dec_out ++ [.byte b]) ∧
          (6 ≤ s.d_rem.val →
            t.d_rem.val = s.d_rem.val - 5 ∧
            t.d_stage.toNat = (s.d_stage.toNat * 2 ^ 11 + v.toNat) % 2 ^ (s.d_rem.val - 5) ∧
            ∃ b₁ b₂ : Byte, b₁.toNat = (s.d_stage.toNat * 2 ^ 11 + v.toNat) / 2 ^ (s.d_rem.val + 3) ∧
              b₂.toNat = (s.d_stage.toNat * 2 ^ 11 + v.toNat) / 2 ^ (s.d_rem.val - 5) % 2 ^ 8 ∧
              t.dec_out = s.dec_out ++ [.byte b₁, .byte b₂])))

/-- R132 (DEC_END), in legal decoder states, with the final flush byte-aligned as R135 derives. The decoder returns to
`DEC_INIT` whatever happened. An error latched before is reported. An empty call: `DecDone(OK)`. A last data symbol supplies
`k = 11 - res` bits and one or two bytes leave; a last terminator supplies `8 - d_rem` bits and one byte leaves; a last
symbol that fails a check is reported. -/
def Obligations.DecEndResult : Prop :=
  decode 0x11000000#32 = .ok .decEnd ∧
  ∀ (T : Tables) (s : State), s.DecLegal → s.RemFollowsResidue →
    ∃ t, execWith T .decEnd s = .next t ∧ (T = Config.tables → exec .decEnd s = .next t) ∧
      t = { s with d_stage := 0#8, d_rem := 0, d_residue := 0, d_pend_valid := false, d_pend_cp := 0#21,
                   d_count := 0#32, d_err := none, d_err_pos := 0#32, d_err_cp := 0#21, dec_out := t.dec_out } ∧
      (∀ code, s.d_err = some code →
        t.dec_out = s.dec_out ++ [.decDone (.err code s.d_err_pos s.d_err_cp)]) ∧
      (s.d_err = none → s.d_pend_valid = false → t.dec_out = s.dec_out ++ [.decDone .ok]) ∧
      (s.d_err = none → s.d_pend_valid = true →
        (T.maxCp < s.d_pend_cp →
          t.dec_out = s.dec_out ++ [.decDone (.err .invalidCharacter (s.d_count - 1#32) s.d_pend_cp)]) ∧
        (∀ v : SymValue, s.d_pend_cp ≤ T.maxCp → T.dec s.d_pend_cp = .data v →
          ∃ k acc : Nat, k = 11 - (s.d_residue.val + 11) % 8 ∧ acc = (s.d_stage.toNat <<< k) ||| v.toNat ∧
            ((s.d_rem.val + k = 8 ∧ t.dec_out = s.dec_out ++ [.byte (BitVec.ofNat 8 acc), .decDone .ok]) ∨
             (s.d_rem.val + k = 16 ∧
              t.dec_out = s.dec_out ++
                [.byte (BitVec.ofNat 8 (acc / 2 ^ 8)), .byte (BitVec.ofNat 8 acc), .decDone .ok]))) ∧
        (s.d_pend_cp ≤ T.maxCp → T.dec s.d_pend_cp = .term → (∀ j, T.tail j ≠ s.d_pend_cp) →
          t.dec_out =
            s.dec_out ++ [.decDone (.err .invalidTerminationCharacter (s.d_count - 1#32) s.d_pend_cp)]) ∧
        (∀ j : TailIndex, s.d_pend_cp ≤ T.maxCp → T.dec s.d_pend_cp = .term → T.tail j = s.d_pend_cp →
          (∀ j' < j, T.tail j' ≠ s.d_pend_cp) →
          (2 ^ (8 - s.d_rem.val) ≤ j.toNat →
            t.dec_out = s.dec_out ++ [.decDone (.err .invalidTailCharacter (s.d_count - 1#32) s.d_pend_cp)]) ∧
          (j.toNat < 2 ^ (8 - s.d_rem.val) →
            ∃ b : Byte, b.toNat = s.d_stage.toNat * 2 ^ (8 - s.d_rem.val) + j.toNat ∧
              t.dec_out = s.dec_out ++ [.byte b, .decDone .ok])))

/-- R179 and R180: in a failed call DEC_SYM does nothing, and DEC_END reports the latched error and returns the decoder to
`DEC_INIT`, so that the next call starts with no error. -/
def Obligations.FailedCallIsReportedOnce : Prop :=
  ∀ (s : State) (code : ErrCode), s.d_err = some code →
    (∀ c : CodePoint, exec (.decSym c) s = .next s) ∧
    ∃ t, exec .decEnd s = .next t ∧ t.DecAtInit ∧
      t.dec_out = s.dec_out ++ [.decDone (.err code s.d_err_pos s.d_err_cp)]

/-- The first symbol of a call is only held: DEC_SYM emits nothing and checks nothing (a corner case of R131). -/
def Obligations.FirstSymbolIsOnlyHeld : Prop :=
  ∀ (c : CodePoint) (s : State), s.d_err = none → s.d_pend_valid = false →
    exec (.decSym c) s = .next { s with d_pend_cp := c, d_pend_valid := true, d_count := s.d_count + 1#32 }

/-- An empty decode call succeeds with no byte (R132, the source's `decode("") == []`). -/
def Obligations.EmptyDecodeCallSucceeds : Prop :=
  ∀ s : State, s.d_err = none → s.d_pend_valid = false →
    ∃ t, exec .decEnd s = .next t ∧ t.DecAtInit ∧ t.dec_out = s.dec_out ++ [.decDone .ok]

/-- The frame of DEC_SYM and DEC_END: every encoder register, the encoder's stream, `cmd_fault` and the port stay as they
are, and the decoder's stream only grows (R131, R132, R31). -/
def Obligations.DecoderCommandsFrame : Prop :=
  ∀ (i : Instr) (s : State), isEncCommand i = false →
    ∃ t, exec i s = .next t ∧ s.SameEncoder t ∧ t.cmd_fault = s.cmd_fault ∧ t.port = s.port ∧
      ∃ ts, t.dec_out = s.dec_out ++ ts

/-- The new symbol of a DEC_SYM is never checked by that command, and no byte of it leaves with it (R131, R204): but for
`d_pend_cp`, where it may be held, nothing in the state after the command depends on it. -/
def Obligations.NewSymbolIsNotLookedAt : Prop :=
  ∀ (c c' : CodePoint) (s : State), ∃ t t', exec (.decSym c) s = .next t ∧ exec (.decSym c') s = .next t' ∧
    ∀ x : CodePoint, { t with d_pend_cp := x } = { t' with d_pend_cp := x }

/-- The final flush always finds exactly 8 bits (the spec's own derivation, R135). -/
def Obligations.FinalFlushIsByteAligned : Prop :=
  ∀ (T : Tables) (c : CodePoint) (s : State) (k v : Nat), s.RemFollowsResidue →
    checkSymbol T c true (nextResidue s.d_residue) s.d_rem = .ok (k, v) →
    (drain (merge s.d_stage k v) (s.d_rem.val + k)).2.2 = 8

/-- Code 4 needs at most 2 owed bits (the spec's own derivation, in R175). -/
def Obligations.InvalidTailCharacterNeedsSixBufferedBits : Prop :=
  ∀ (T : Tables) (c : CodePoint) (last : Bool) (res : Fin 8) (rem : Fin 9),
    checkSymbol T c last res rem = .error .invalidTailCharacter →
      6 ≤ rem.val ∧ last = true ∧ T.dec c = .term ∧
        ∃ j : TailIndex, T.tail j = c ∧ (∀ j' < j, T.tail j' ≠ c) ∧ 2 ^ (8 - rem.val) ≤ j.toNat

/-- Tokens per command in legal states (R62): at most one symbol for ENC_BYTE, at most two bytes for DEC_SYM, at most two
bytes and one DecDone for DEC_END. -/
def Obligations.TokensPerCommand : Prop :=
  ∀ s : State, s.Inv →
    (∀ b : Byte, ∃ t ts, exec (.encByte b) s = .next t ∧ t.enc_out = s.enc_out ++ ts ∧ ts.length ≤ 1) ∧
    (∀ c : CodePoint, ∃ (t : State) (bs : List Byte), exec (.decSym c) s = .next t ∧
      t.dec_out = s.dec_out ++ bs.map DecToken.byte ∧ bs.length ≤ 2) ∧
    (∃ (t : State) (bs : List Byte) (st : Status), exec .decEnd s = .next t ∧
      t.dec_out = s.dec_out ++ bs.map DecToken.byte ++ [.decDone st] ∧ bs.length ≤ 2)

/-! Whole-machine rules -/

/-- R31: no command of one engine writes the other's registers, and none reads them: from two states that agree on its own
engine, a command leads to states that agree on it. -/
def Obligations.EnginesShareNoRegister : Prop :=
  ∀ (i : Instr) (s s' : State), ∃ t t', exec i s = .next t ∧ exec i s' = .next t' ∧
    (isEncCommand i = true → s.SameDecoder t ∧ (s.SameEncoder s' → t.SameEncoder t')) ∧
    (isEncCommand i = false → s.SameEncoder t ∧ (s.SameDecoder s' → t.SameDecoder t'))

/-- Each engine's registers and stream after a run are those of the run with the other engine's commands and the illegal
words left out (the spec's own derivation, R64 and R184). -/
def Obligations.EachStreamDependsOnItsOwnEngine : Prop :=
  ∀ (T : Tables) (es : List HostEvent) (s : State),
    (runEvents T (es.filter isEncEvent) s).SameEncoder (runEvents T es s) ∧
    (runEvents T (es.filter isDecEvent) s).SameDecoder (runEvents T es s)

/-- A run of `n` steps takes the first `n` events of the port in order, each as one indivisible step (R62, R64, R211). -/
def Obligations.StepsTakeTheEventsInOrder : Prop :=
  (∀ (T : Tables) (es rest : List HostEvent) (s : State), s.port = es ++ rest →
    (coreWith T).run es.length s = .next { runEvents T es s with port := rest }) ∧
  (∀ (es rest : List HostEvent) (s : State), s.port = es ++ rest →
    Sys2Proof.core.run es.length s = .next { runEvents Config.tables es s with port := rest })

/-- A run with no reset in it leaves `cmd_fault` clear exactly when it found it clear and every word it was given was a
legal command (R183: the flag records a fault, and only reset clears it). -/
def Obligations.UnfaultedRunsHoldOnlyCommands : Prop :=
  ∀ (T : Tables) (es : List HostEvent) (s : State), HostEvent.reset ∉ es →
    ((runEvents T es s).Unfaulted ↔ s.Unfaulted ∧ ∀ w : Word, HostEvent.word w ∈ es → ∃ i, decode w = .ok i)

/-- Which tables each engine reads (R51 to R53): the encoder `ENC_TABLE` and `TAIL_TABLE`; the decoder `TAIL_TABLE`, `MAXCP`
and the entries of `DEC_TABLE` up to `MAXCP`. -/
def Obligations.TablesReadByEachEngine : Prop :=
  (∀ (T T' : Tables) (i : Instr) (s : State), isEncCommand i = true → T'.enc = T.enc → T'.tail = T.tail →
    execWith T' i s = execWith T i s) ∧
  (∀ (T T' : Tables) (i : Instr) (s : State), isEncCommand i = false → T'.tail = T.tail → T'.maxCp = T.maxCp →
    (∀ c, c ≤ T.maxCp → T'.dec c = T.dec c) → execWith T' i s = execWith T i s)

/-- The reset state is a legal state. -/
def Obligations.ResetStateIsLegal : Prop := State.reset.Inv

/-- Every step from a legal state leads to a legal state (R102, R133, R134: the spec's own derivations). -/
def Obligations.EveryStepKeepsTheStateLegal : Prop :=
  ∀ s : State, s.Inv → ∃ t, step s = .next t ∧ t.Inv

/-! Calls -/

/-- A call begun with its engine in its initial state gives the call function's tokens, returns the engine to its initial
state and changes nothing else, whatever the rest of the state is (R104, R139, R38: calls are independent). -/
def Obligations.CallsAreIndependent : Prop :=
  (∀ (T : Tables) (bytes : List Byte) (s : State), s.EncAtInit →
    applyCommands T (encodeCommands bytes) s =
      { s with enc_out := s.enc_out ++ (encodeCall T bytes).map EncToken.sym ++ [.encDone] }) ∧
  (∀ (T : Tables) (cps : List CodePoint) (s : State), s.DecAtInit →
    applyCommands T (decodeCommands cps) s = { s with dec_out := s.dec_out ++ decodeCall T cps })

/-- The host reads every call's result off the streams (R77, R78, R211), of tokens it has and of a whole run. -/
def Obligations.ResultsAreReadOffTheStreams : Prop :=
  (∀ (T : Tables) (calls : List (List Byte)) (s : State), s.EncAtInit →
    (∃ ts, (applyCommands T (calls.flatMap encodeCommands) s).enc_out = s.enc_out ++ ts ∧
      encResults (ts.map Seen.token) = calls.map (encodeCall T)) ∧
    runEncResults T ((calls.flatMap encodeCommands).map commandEvent) s = calls.map (encodeCall T)) ∧
  (∀ (T : Tables) (calls : List (List CodePoint)) (s : State), s.DecAtInit →
    (∃ ts, (applyCommands T (calls.flatMap decodeCommands) s).dec_out = s.dec_out ++ ts ∧
      decResults (ts.map Seen.token) = calls.flatMap (fun c => decResults ((decodeCall T c).map Seen.token)) ∧
      (decResults (ts.map Seen.token)).length = calls.length) ∧
    runDecResults T ((calls.flatMap decodeCommands).map commandEvent) s =
      calls.flatMap (fun c => decResults ((decodeCall T c).map Seen.token)))

/-- What the host meets in a run is what the run appends to the streams, token by token (R30, R79, R211), and every reset of
the run. That the host's record of a run (`runSeen`) holds the resets is the model's deduction from R201 and R211
(log entry 17); the clauses that count them rest on it. -/
def Obligations.TheHostSeesTheStreams : Prop :=
  ∀ (T : Tables) (es : List HostEvent) (s : State),
    (runEvents T es s).enc_out = s.enc_out ++ seenTokens (runSeen State.enc_out T es s) ∧
    (runEvents T es s).dec_out = s.dec_out ++ seenTokens (runSeen State.dec_out T es s) ∧
    (runSeen State.enc_out T es s).count .reset = es.count .reset ∧
    (runSeen State.dec_out T es s).count .reset = es.count .reset

/-- A reset ends the calls in progress without a result and voids their tokens, and the next commands begin new calls: the
results of a run are those of the part before a reset, then those of the part after it run from `State.reset`
(R201, R211). -/
def Obligations.ResetVoidsTheCallsInProgress : Prop :=
  ∀ (T : Tables) (es es' : List HostEvent) (s : State),
    runEncResults T (es ++ .reset :: es') s = runEncResults T es s ++ runEncResults T es' State.reset ∧
    runDecResults T (es ++ .reset :: es') s = runDecResults T es s ++ runDecResults T es' State.reset

/-- A call with no END token has no result (R211): bytes or symbols without their END command add none. -/
def Obligations.NoResultWithoutItsEnd : Prop :=
  (∀ (T : Tables) (es : List HostEvent) (bytes : List Byte) (s : State),
    runEncResults T (es ++ (bytes.map Instr.encByte).map commandEvent) s = runEncResults T es s) ∧
  (∀ (T : Tables) (es : List HostEvent) (cps : List CodePoint) (s : State),
    runDecResults T (es ++ (cps.map Instr.decSym).map commandEvent) s = runDecResults T es s)

/-- The bit stream of R58: stream bit `k` is bit `7 - (k mod 8)` of byte `k / 8`. -/
def Obligations.BitStreamOrder : Prop :=
  ∀ (bytes : List Byte) (k : Nat) (h : k / 8 < bytes.length),
    (Reference.bitStream bytes).length = 8 * bytes.length ∧
    (Reference.bitStream bytes)[k]? = some ((bytes[k / 8]'h).getLsbD (7 - k % 8))

/-- The encoder packs the bit stream: each main symbol carries 11 consecutive bits, the earliest its bit 10, and the last
group is right-aligned with no padding (R58, R59, R70). -/
def Obligations.EncodeCallPacksTheBitStream : Prop :=
  ∀ (T : Tables) (bytes : List Byte), encodeCall T bytes = Reference.encodeStream T bytes

/-- Both readings of the source's branch condition encode every buffer alike (the spec's own derivation, R106). -/
def Obligations.BothBranchReadingsEncodeAlike : Prop :=
  ∀ (T : Tables) (bytes : List Byte), encodeCall T bytes = Reference.encodeLiteral T bytes

/-- The length law (the spec's own derivation, R105): `ceil(8L / 11)` symbols, the last a tail symbol holding the last `r`
bits exactly when `r = 8L mod 11` is 1 to 3, every other one a main symbol. -/
def Obligations.EncodedLengthLaw : Prop :=
  ∀ (T : Tables) (bytes : List Byte),
    (encodeCall T bytes).length = (8 * bytes.length + 10) / 11 ∧
    ∃ vs : List SymValue,
      (8 * bytes.length % 11 = 0 → encodeCall T bytes = vs.map T.enc) ∧
      (1 ≤ 8 * bytes.length % 11 → 8 * bytes.length % 11 ≤ 3 →
        ∃ j : TailIndex, encodeCall T bytes = vs.map T.enc ++ [T.tail j] ∧
          j.toNat = Reference.bitsValue
            ((Reference.bitStream bytes).drop (8 * bytes.length - 8 * bytes.length % 11))) ∧
      (4 ≤ 8 * bytes.length % 11 →
        ∃ v : SymValue, encodeCall T bytes = vs.map T.enc ++ [T.enc v] ∧
          v.toNat = Reference.bitsValue
            ((Reference.bitStream bytes).drop (8 * bytes.length - 8 * bytes.length % 11)))

/-- The decoder is the source's whole-buffer decoder fed one symbol at a time (the spec's own derivation, R139 and R177):
the same bytes, and OK or the same first error, its position modulo `2^POS_WIDTH`. -/
def Obligations.DecodeCallIsTheWholeBufferDecoder : Prop :=
  ∀ (T : Tables) (cps : List CodePoint), ∃ st : Status,
    decodeCall T cps = (Reference.decodeWhole T cps).1.map DecToken.byte ++ [.decDone st] ∧
    ((Reference.decodeWhole T cps).2 = .ok → st = .ok) ∧
    (∀ code pos cp, (Reference.decodeWhole T cps).2 = .fail code pos cp →
      ∃ e : ErrCode, st = .err e (BitVec.ofNat 32 pos) cp ∧ e.number.toNat = code)

/-- Round trip (the spec's own derivation, R140): under T1 to T3 decoding an encoded buffer gives the buffer back. -/
def Obligations.DecodingAnEncodedBufferGivesItBack : Prop :=
  ∀ (T : Tables) (bytes : List Byte), T.WF →
    decodeCall T (encodeCall T bytes) = bytes.map DecToken.byte ++ [.decDone .ok]

/-- Output length of a successful call (the spec's own derivation, R137). -/
def Obligations.DecodedLengthLaw : Prop :=
  ∀ (T : Tables) (cps : List CodePoint) (c : CodePoint) (bs : List Byte),
    decodeCall T (cps ++ [c]) = bs.map DecToken.byte ++ [.decDone .ok] →
      (∀ v, T.dec c = .data v → bs.length = 11 * (cps.length + 1) / 8) ∧
      (T.dec c = .term → bs.length = if cps.length = 0 then 1 else (11 * cps.length + 7) / 8)

/-- Code-point closure (the spec's own derivation, R142): under T1 to T4 a code point that passes the checks is a symbol of
one of the alphabets, the one its value names. -/
def Obligations.AcceptedCodePointsAreOfTheAlphabets : Prop :=
  ∀ (T : Tables) (c : CodePoint) (last : Bool) (res : Fin 8) (rem : Fin 9) (k v : Nat), T.WF → T.T4 →
    checkSymbol T c last res rem = .ok (k, v) →
      (∃ x : SymValue, x.toNat = v ∧ T.enc x = c) ∨ (∃ j : TailIndex, j.toNat = v ∧ T.tail j = c)

/-- Terminator placement (the source's property, spec/95_test_vectors.md V-S4): a tail symbol before the end fails the call,
and at the start it is itself the reported symbol. -/
def Obligations.TailSymbolBeforeTheEndFailsTheCall : Prop :=
  ∀ (T : Tables) (pre post : List CodePoint) (j : TailIndex) (c : CodePoint), T.WF →
    (∃ (ts : List DecToken) (code : ErrCode) (pos : Pos) (cp : CodePoint),
      decodeCall T (pre ++ T.tail j :: c :: post) = ts ++ [.decDone (.err code pos cp)]) ∧
    decodeCall T (T.tail j :: c :: post) = [.decDone (.err .unexpectedAfterTerminator 0#32 (T.tail j))]

/-- Decoding is not injective, and strings the encoder never emits decode too (the spec's own derivation, R138): a lone tail
symbol, data symbols whose value is wider than the bits taken, a tail symbol where the encoder would use a main symbol. -/
def Obligations.DecodingIsNotInjective : Prop :=
  ∀ T : Tables, T.WF →
    (∀ j : TailIndex, decodeCall T [T.tail j] = [.byte (BitVec.ofNat 8 j.toNat), .decDone .ok]) ∧
    T.enc 0x0FF#11 ≠ T.enc 0x7FF#11 ∧
    decodeCall T [T.enc 0x0FF#11] = [.byte 0xFF#8, .decDone .ok] ∧
    decodeCall T [T.enc 0x7FF#11] = [.byte 0xFF#8, .decDone .ok] ∧
    decodeCall T [T.enc 0x100#11] = [.byte 0x00#8, .decDone .ok] ∧
    decodeCall T [T.enc 0x7FF#11, T.tail 7#3] = [.byte 0xFF#8, .byte 0xE7#8, .decDone .ok] ∧
    (∀ bytes : List Byte,
      (∀ j : TailIndex, encodeCall T bytes ≠ [T.tail j]) ∧ encodeCall T bytes ≠ [T.enc 0x7FF#11] ∧
      encodeCall T bytes ≠ [T.enc 0x100#11] ∧ encodeCall T bytes ≠ [T.enc 0x7FF#11, T.tail 7#3])

/-! The assembler -/

/-- R81: a pseudo-instruction assembles as the statements of its expansion do one after another, an operand out of range
among them; with operands in range the words are those of a call's commands. -/
def Obligations.PseudoInstructionsExpandToCalls : Prop :=
  (∀ (T : Tables) (ns : List Nat),
    Asm.assemble T (.encodeAll ns) =
      ((ns.map Asm.Stmt.encByte ++ [Asm.Stmt.encEnd]).mapM (Asm.assemble T)).map List.flatten) ∧
  (∀ (T : Tables) (os : List Asm.CpOperand),
    Asm.assemble T (.decodeAll os) =
      ((os.map Asm.Stmt.decSym ++ [Asm.Stmt.decEnd]).mapM (Asm.assemble T)).map List.flatten) ∧
  (∀ (T : Tables) (bytes : List Byte),
    Asm.assemble T (.encodeAll (bytes.map BitVec.toNat)) = .ok ((encodeCommands bytes).map encode)) ∧
  (∀ (T : Tables) (cps : List CodePoint),
    Asm.assemble T (.decodeAll (cps.map fun c => .num c.toNat)) = .ok ((decodeCommands cps).map encode))

/-- R82 and the ranges of R80: an operand in range assembles to its command word, table operands through the tables, one out
of range is an assembly error. -/
def Obligations.OperandsAssembleInRangeOnly : Prop :=
  ∀ (T : Tables) (n : Nat),
    (n ≤ 255 → Asm.assemble T (.encByte n) = .ok [BitVec.ofNat 32 (0x01000000 + n)]) ∧
    (255 < n → Asm.assemble T (.encByte n) = .error .operandRange) ∧
    (n ≤ 0x1FFFFF → Asm.assemble T (.decSym (.num n)) = .ok [BitVec.ofNat 32 (0x10000000 + n)]) ∧
    (0x1FFFFF < n → Asm.assemble T (.decSym (.num n)) = .error .operandRange) ∧
    (n ≤ 2047 → Asm.assemble T (.decSym (.main n)) =
      .ok [BitVec.ofNat 32 (0x10000000 + (T.enc (BitVec.ofNat 11 n)).toNat)]) ∧
    (2047 < n → Asm.assemble T (.decSym (.main n)) = .error .operandRange) ∧
    (n ≤ 7 → Asm.assemble T (.decSym (.tail n)) =
      .ok [BitVec.ofNat 32 (0x10000000 + (T.tail (BitVec.ofNat 3 n)).toNat)]) ∧
    (7 < n → Asm.assemble T (.decSym (.tail n)) = .error .operandRange)
end

