-- ==== Sys2Proof/Laws/Operands.lean ====
section
/-! SUPPORT. The bit-field helpers as arithmetic: each shift, mask and merge once, for every later proof. -/

namespace Sys2Proof.Machine

/-- Masking keeps the remainder. -/
@[simp] theorem and_mask (a k : Nat) : a &&& mask k = a % 2 ^ k := Nat.and_two_pow_sub_one_eq_mod a k

/-- Placing `v` below a shifted value adds it, when `v` fits the shift. -/
theorem shiftLeft_or_of_lt {a v k : Nat} (h : v < 2 ^ k) : (a <<< k) ||| v = a * 2 ^ k + v := by
  rw [Nat.shiftLeft_eq, Nat.mul_comm, Nat.two_pow_add_eq_or_of_lt h]

/-- The encoder's index as arithmetic: the buffered bits on top of the byte's top bits. -/
theorem encIndex_eq {need : Nat} (stage : Nat) (b : Byte) (h : need ≤ 8) :
    encIndex stage need b.toNat = stage * 2 ^ need + b.toNat / 2 ^ (8 - need) := by
  have hb : b.toNat / 2 ^ (8 - need) < 2 ^ need := by
    rw [Nat.div_lt_iff_lt_mul (by positivity), ← pow_add, Nat.add_sub_cancel' h]
    exact b.isLt
  rw [encIndex, Nat.shiftRight_eq_div_pow, shiftLeft_or_of_lt hb]

/-- In a legal state the encoder's index has 11 bits. -/
theorem encIndex_lt {stage rem : Nat} (b : Byte) (hs : stage < 2 ^ rem) (h3 : 3 ≤ rem) (h10 : rem ≤ 10) :
    encIndex stage (encNeed rem) b.toNat < 2 ^ 11 := by
  have hn : encNeed rem ≤ 8 := by unfold encNeed; omega
  rw [encIndex_eq stage b hn]
  have hb : b.toNat / 2 ^ (8 - encNeed rem) < 2 ^ encNeed rem := by
    rw [Nat.div_lt_iff_lt_mul (by positivity), ← pow_add, Nat.add_sub_cancel' hn]
    exact b.isLt
  have hp : (2 : Nat) ^ 11 = 2 ^ rem * 2 ^ encNeed rem := by
    rw [← pow_add]; congr 1; unfold encNeed; omega
  have : (stage + 1) * 2 ^ encNeed rem ≤ 2 ^ rem * 2 ^ encNeed rem := Nat.mul_le_mul_right _ hs
  rw [hp]; linarith [Nat.succ_mul stage (2 ^ encNeed rem)]

/-- The decoder's merge as arithmetic, when the value fits its bits. -/
theorem merge_eq {k v : Nat} (stage : BitVec 8) (h : v < 2 ^ k) : merge stage k v = stage.toNat * 2 ^ k + v :=
  shiftLeft_or_of_lt h

/-- The residue counter adds 11 modulo 8. -/
@[simp] theorem nextResidue_val (q : Fin 8) : (nextResidue q).val = (q.val + 11) % 8 := rfl

/-- The search finds no index exactly when no entry of the tail table is the code point. -/
theorem tailIndex_eq_none_iff (T : Tables) (c : CodePoint) : tailIndex T c = none ↔ ∀ j, T.tail j ≠ c := by
  have hall : ∀ j : TailIndex, j ∈ tailIndices := by decide
  simp only [tailIndex, List.find?_eq_none, decide_eq_true_eq]
  exact ⟨fun h j => h j (hall j), fun h j _ => h j⟩

/-- The search finds the smallest index whose entry is the code point (spec/20_memory.md R55). -/
theorem tailIndex_eq_some_iff (T : Tables) (c : CodePoint) (j : TailIndex) :
    tailIndex T c = some j ↔ T.tail j = c ∧ ∀ j' < j, T.tail j' ≠ c := by
  have hsplit : ∀ j : TailIndex, tailIndices = tailIndices.take j.toNat ++ j :: tailIndices.drop (j.toNat + 1) := by decide
  have hbelow : ∀ j j' : TailIndex, j' ∈ tailIndices.take j.toNat ↔ j' < j := by decide
  constructor
  · intro h
    have hj : T.tail j = c := by simpa using List.find?_some h
    refine ⟨hj, fun j' hlt heq => ?_⟩
    rw [tailIndex, hsplit j, List.find?_append] at h
    cases hf : (tailIndices.take j.toNat).find? (fun j => decide (T.tail j = c)) with
    | none =>
      rw [List.find?_eq_none] at hf
      exact hf j' ((hbelow j j').2 hlt) (by simpa using heq)
    | some a =>
      rw [hf] at h
      have haj : a = j := by simpa using h
      have : a < j := (hbelow j a).1 (List.mem_of_find?_eq_some hf)
      rw [haj] at this; bv_omega
  · rintro ⟨hj, hmin⟩
    rw [tailIndex, hsplit j, List.find?_append]
    have : (tailIndices.take j.toNat).find? (fun j => decide (T.tail j = c)) = none := by
      simp only [List.find?_eq_none, decide_eq_true_eq]
      exact fun i hi => hmin i ((hbelow j i).1 hi)
    rw [this, List.find?_cons_of_pos (by simpa using hj)]; rfl

end Sys2Proof.Machine
end

