-- ==== Sys2Proof/Laws/State.lean ====
section
/-! SUPPORT. One lemma per field per update of the state, so that no later proof unfolds a record update. -/

namespace Sys2Proof.Machine

variable (s : State)

@[simp] theorem State.setEnc_e_stage (a : BitVec 10) (r : Fin 11) : (s.setEnc a r).e_stage = a := rfl
@[simp] theorem State.setEnc_e_rem (a : BitVec 10) (r : Fin 11) : (s.setEnc a r).e_rem = r := rfl
@[simp] theorem State.setEnc_d_stage (a : BitVec 10) (r : Fin 11) : (s.setEnc a r).d_stage = s.d_stage := rfl
@[simp] theorem State.setEnc_d_rem (a : BitVec 10) (r : Fin 11) : (s.setEnc a r).d_rem = s.d_rem := rfl
@[simp] theorem State.setEnc_d_residue (a : BitVec 10) (r : Fin 11) : (s.setEnc a r).d_residue = s.d_residue := rfl
@[simp] theorem State.setEnc_d_pend_valid (a : BitVec 10) (r : Fin 11) : (s.setEnc a r).d_pend_valid = s.d_pend_valid := rfl
@[simp] theorem State.setEnc_d_pend_cp (a : BitVec 10) (r : Fin 11) : (s.setEnc a r).d_pend_cp = s.d_pend_cp := rfl
@[simp] theorem State.setEnc_d_count (a : BitVec 10) (r : Fin 11) : (s.setEnc a r).d_count = s.d_count := rfl
@[simp] theorem State.setEnc_d_err (a : BitVec 10) (r : Fin 11) : (s.setEnc a r).d_err = s.d_err := rfl
@[simp] theorem State.setEnc_d_err_pos (a : BitVec 10) (r : Fin 11) : (s.setEnc a r).d_err_pos = s.d_err_pos := rfl
@[simp] theorem State.setEnc_d_err_cp (a : BitVec 10) (r : Fin 11) : (s.setEnc a r).d_err_cp = s.d_err_cp := rfl
@[simp] theorem State.setEnc_cmd_fault (a : BitVec 10) (r : Fin 11) : (s.setEnc a r).cmd_fault = s.cmd_fault := rfl
@[simp] theorem State.setEnc_enc_out (a : BitVec 10) (r : Fin 11) : (s.setEnc a r).enc_out = s.enc_out := rfl
@[simp] theorem State.setEnc_dec_out (a : BitVec 10) (r : Fin 11) : (s.setEnc a r).dec_out = s.dec_out := rfl
@[simp] theorem State.setEnc_port (a : BitVec 10) (r : Fin 11) : (s.setEnc a r).port = s.port := rfl

@[simp] theorem State.setDec_e_stage (a : BitVec 8) (r : Fin 9) (q : Fin 8) : (s.setDec a r q).e_stage = s.e_stage := rfl
@[simp] theorem State.setDec_e_rem (a : BitVec 8) (r : Fin 9) (q : Fin 8) : (s.setDec a r q).e_rem = s.e_rem := rfl
@[simp] theorem State.setDec_d_stage (a : BitVec 8) (r : Fin 9) (q : Fin 8) : (s.setDec a r q).d_stage = a := rfl
@[simp] theorem State.setDec_d_rem (a : BitVec 8) (r : Fin 9) (q : Fin 8) : (s.setDec a r q).d_rem = r := rfl
@[simp] theorem State.setDec_d_residue (a : BitVec 8) (r : Fin 9) (q : Fin 8) : (s.setDec a r q).d_residue = q := rfl
@[simp] theorem State.setDec_d_pend_valid (a : BitVec 8) (r : Fin 9) (q : Fin 8) : (s.setDec a r q).d_pend_valid = s.d_pend_valid := rfl
@[simp] theorem State.setDec_d_pend_cp (a : BitVec 8) (r : Fin 9) (q : Fin 8) : (s.setDec a r q).d_pend_cp = s.d_pend_cp := rfl
@[simp] theorem State.setDec_d_count (a : BitVec 8) (r : Fin 9) (q : Fin 8) : (s.setDec a r q).d_count = s.d_count := rfl
@[simp] theorem State.setDec_d_err (a : BitVec 8) (r : Fin 9) (q : Fin 8) : (s.setDec a r q).d_err = s.d_err := rfl
@[simp] theorem State.setDec_d_err_pos (a : BitVec 8) (r : Fin 9) (q : Fin 8) : (s.setDec a r q).d_err_pos = s.d_err_pos := rfl
@[simp] theorem State.setDec_d_err_cp (a : BitVec 8) (r : Fin 9) (q : Fin 8) : (s.setDec a r q).d_err_cp = s.d_err_cp := rfl
@[simp] theorem State.setDec_cmd_fault (a : BitVec 8) (r : Fin 9) (q : Fin 8) : (s.setDec a r q).cmd_fault = s.cmd_fault := rfl
@[simp] theorem State.setDec_enc_out (a : BitVec 8) (r : Fin 9) (q : Fin 8) : (s.setDec a r q).enc_out = s.enc_out := rfl
@[simp] theorem State.setDec_dec_out (a : BitVec 8) (r : Fin 9) (q : Fin 8) : (s.setDec a r q).dec_out = s.dec_out := rfl
@[simp] theorem State.setDec_port (a : BitVec 8) (r : Fin 9) (q : Fin 8) : (s.setDec a r q).port = s.port := rfl

@[simp] theorem State.emitE_e_stage (t : EncToken) : (s.emitE t).e_stage = s.e_stage := rfl
@[simp] theorem State.emitE_e_rem (t : EncToken) : (s.emitE t).e_rem = s.e_rem := rfl
@[simp] theorem State.emitE_d_stage (t : EncToken) : (s.emitE t).d_stage = s.d_stage := rfl
@[simp] theorem State.emitE_d_rem (t : EncToken) : (s.emitE t).d_rem = s.d_rem := rfl
@[simp] theorem State.emitE_d_residue (t : EncToken) : (s.emitE t).d_residue = s.d_residue := rfl
@[simp] theorem State.emitE_d_pend_valid (t : EncToken) : (s.emitE t).d_pend_valid = s.d_pend_valid := rfl
@[simp] theorem State.emitE_d_pend_cp (t : EncToken) : (s.emitE t).d_pend_cp = s.d_pend_cp := rfl
@[simp] theorem State.emitE_d_count (t : EncToken) : (s.emitE t).d_count = s.d_count := rfl
@[simp] theorem State.emitE_d_err (t : EncToken) : (s.emitE t).d_err = s.d_err := rfl
@[simp] theorem State.emitE_d_err_pos (t : EncToken) : (s.emitE t).d_err_pos = s.d_err_pos := rfl
@[simp] theorem State.emitE_d_err_cp (t : EncToken) : (s.emitE t).d_err_cp = s.d_err_cp := rfl
@[simp] theorem State.emitE_cmd_fault (t : EncToken) : (s.emitE t).cmd_fault = s.cmd_fault := rfl
@[simp] theorem State.emitE_enc_out (t : EncToken) : (s.emitE t).enc_out = s.enc_out ++ [t] := rfl
@[simp] theorem State.emitE_dec_out (t : EncToken) : (s.emitE t).dec_out = s.dec_out := rfl
@[simp] theorem State.emitE_port (t : EncToken) : (s.emitE t).port = s.port := rfl

@[simp] theorem State.emitD_e_stage (t : DecToken) : (s.emitD t).e_stage = s.e_stage := rfl
@[simp] theorem State.emitD_e_rem (t : DecToken) : (s.emitD t).e_rem = s.e_rem := rfl
@[simp] theorem State.emitD_d_stage (t : DecToken) : (s.emitD t).d_stage = s.d_stage := rfl
@[simp] theorem State.emitD_d_rem (t : DecToken) : (s.emitD t).d_rem = s.d_rem := rfl
@[simp] theorem State.emitD_d_residue (t : DecToken) : (s.emitD t).d_residue = s.d_residue := rfl
@[simp] theorem State.emitD_d_pend_valid (t : DecToken) : (s.emitD t).d_pend_valid = s.d_pend_valid := rfl
@[simp] theorem State.emitD_d_pend_cp (t : DecToken) : (s.emitD t).d_pend_cp = s.d_pend_cp := rfl
@[simp] theorem State.emitD_d_count (t : DecToken) : (s.emitD t).d_count = s.d_count := rfl
@[simp] theorem State.emitD_d_err (t : DecToken) : (s.emitD t).d_err = s.d_err := rfl
@[simp] theorem State.emitD_d_err_pos (t : DecToken) : (s.emitD t).d_err_pos = s.d_err_pos := rfl
@[simp] theorem State.emitD_d_err_cp (t : DecToken) : (s.emitD t).d_err_cp = s.d_err_cp := rfl
@[simp] theorem State.emitD_cmd_fault (t : DecToken) : (s.emitD t).cmd_fault = s.cmd_fault := rfl
@[simp] theorem State.emitD_enc_out (t : DecToken) : (s.emitD t).enc_out = s.enc_out := rfl
@[simp] theorem State.emitD_dec_out (t : DecToken) : (s.emitD t).dec_out = s.dec_out ++ [t] := rfl
@[simp] theorem State.emitD_port (t : DecToken) : (s.emitD t).port = s.port := rfl

@[simp] theorem State.emitBytes_e_stage (bs : List Byte) : (s.emitBytes bs).e_stage = s.e_stage := rfl
@[simp] theorem State.emitBytes_e_rem (bs : List Byte) : (s.emitBytes bs).e_rem = s.e_rem := rfl
@[simp] theorem State.emitBytes_d_stage (bs : List Byte) : (s.emitBytes bs).d_stage = s.d_stage := rfl
@[simp] theorem State.emitBytes_d_rem (bs : List Byte) : (s.emitBytes bs).d_rem = s.d_rem := rfl
@[simp] theorem State.emitBytes_d_residue (bs : List Byte) : (s.emitBytes bs).d_residue = s.d_residue := rfl
@[simp] theorem State.emitBytes_d_pend_valid (bs : List Byte) : (s.emitBytes bs).d_pend_valid = s.d_pend_valid := rfl
@[simp] theorem State.emitBytes_d_pend_cp (bs : List Byte) : (s.emitBytes bs).d_pend_cp = s.d_pend_cp := rfl
@[simp] theorem State.emitBytes_d_count (bs : List Byte) : (s.emitBytes bs).d_count = s.d_count := rfl
@[simp] theorem State.emitBytes_d_err (bs : List Byte) : (s.emitBytes bs).d_err = s.d_err := rfl
@[simp] theorem State.emitBytes_d_err_pos (bs : List Byte) : (s.emitBytes bs).d_err_pos = s.d_err_pos := rfl
@[simp] theorem State.emitBytes_d_err_cp (bs : List Byte) : (s.emitBytes bs).d_err_cp = s.d_err_cp := rfl
@[simp] theorem State.emitBytes_cmd_fault (bs : List Byte) : (s.emitBytes bs).cmd_fault = s.cmd_fault := rfl
@[simp] theorem State.emitBytes_enc_out (bs : List Byte) : (s.emitBytes bs).enc_out = s.enc_out := rfl
@[simp] theorem State.emitBytes_dec_out (bs : List Byte) : (s.emitBytes bs).dec_out = s.dec_out ++ bs.map DecToken.byte := rfl
@[simp] theorem State.emitBytes_port (bs : List Byte) : (s.emitBytes bs).port = s.port := rfl

@[simp] theorem State.holdPending_e_stage (c : CodePoint) : (s.holdPending c).e_stage = s.e_stage := rfl
@[simp] theorem State.holdPending_e_rem (c : CodePoint) : (s.holdPending c).e_rem = s.e_rem := rfl
@[simp] theorem State.holdPending_d_stage (c : CodePoint) : (s.holdPending c).d_stage = s.d_stage := rfl
@[simp] theorem State.holdPending_d_rem (c : CodePoint) : (s.holdPending c).d_rem = s.d_rem := rfl
@[simp] theorem State.holdPending_d_residue (c : CodePoint) : (s.holdPending c).d_residue = s.d_residue := rfl
@[simp] theorem State.holdPending_d_pend_valid (c : CodePoint) : (s.holdPending c).d_pend_valid = true := rfl
@[simp] theorem State.holdPending_d_pend_cp (c : CodePoint) : (s.holdPending c).d_pend_cp = c := rfl
@[simp] theorem State.holdPending_d_count (c : CodePoint) : (s.holdPending c).d_count = s.d_count + 1#32 := rfl
@[simp] theorem State.holdPending_d_err (c : CodePoint) : (s.holdPending c).d_err = s.d_err := rfl
@[simp] theorem State.holdPending_d_err_pos (c : CodePoint) : (s.holdPending c).d_err_pos = s.d_err_pos := rfl
@[simp] theorem State.holdPending_d_err_cp (c : CodePoint) : (s.holdPending c).d_err_cp = s.d_err_cp := rfl
@[simp] theorem State.holdPending_cmd_fault (c : CodePoint) : (s.holdPending c).cmd_fault = s.cmd_fault := rfl
@[simp] theorem State.holdPending_enc_out (c : CodePoint) : (s.holdPending c).enc_out = s.enc_out := rfl
@[simp] theorem State.holdPending_dec_out (c : CodePoint) : (s.holdPending c).dec_out = s.dec_out := rfl
@[simp] theorem State.holdPending_port (c : CodePoint) : (s.holdPending c).port = s.port := rfl

@[simp] theorem State.encInit_e_stage : (s.encInit).e_stage = 0#10 := rfl
@[simp] theorem State.encInit_e_rem : (s.encInit).e_rem = 0 := rfl
@[simp] theorem State.encInit_d_stage : (s.encInit).d_stage = s.d_stage := rfl
@[simp] theorem State.encInit_d_rem : (s.encInit).d_rem = s.d_rem := rfl
@[simp] theorem State.encInit_d_residue : (s.encInit).d_residue = s.d_residue := rfl
@[simp] theorem State.encInit_d_pend_valid : (s.encInit).d_pend_valid = s.d_pend_valid := rfl
@[simp] theorem State.encInit_d_pend_cp : (s.encInit).d_pend_cp = s.d_pend_cp := rfl
@[simp] theorem State.encInit_d_count : (s.encInit).d_count = s.d_count := rfl
@[simp] theorem State.encInit_d_err : (s.encInit).d_err = s.d_err := rfl
@[simp] theorem State.encInit_d_err_pos : (s.encInit).d_err_pos = s.d_err_pos := rfl
@[simp] theorem State.encInit_d_err_cp : (s.encInit).d_err_cp = s.d_err_cp := rfl
@[simp] theorem State.encInit_cmd_fault : (s.encInit).cmd_fault = s.cmd_fault := rfl
@[simp] theorem State.encInit_enc_out : (s.encInit).enc_out = s.enc_out := rfl
@[simp] theorem State.encInit_dec_out : (s.encInit).dec_out = s.dec_out := rfl
@[simp] theorem State.encInit_port : (s.encInit).port = s.port := rfl

@[simp] theorem State.decInit_e_stage : (s.decInit).e_stage = s.e_stage := rfl
@[simp] theorem State.decInit_e_rem : (s.decInit).e_rem = s.e_rem := rfl
@[simp] theorem State.decInit_d_stage : (s.decInit).d_stage = 0#8 := rfl
@[simp] theorem State.decInit_d_rem : (s.decInit).d_rem = 0 := rfl
@[simp] theorem State.decInit_d_residue : (s.decInit).d_residue = 0 := rfl
@[simp] theorem State.decInit_d_pend_valid : (s.decInit).d_pend_valid = false := rfl
@[simp] theorem State.decInit_d_pend_cp : (s.decInit).d_pend_cp = 0#21 := rfl
@[simp] theorem State.decInit_d_count : (s.decInit).d_count = 0#32 := rfl
@[simp] theorem State.decInit_d_err : (s.decInit).d_err = none := rfl
@[simp] theorem State.decInit_d_err_pos : (s.decInit).d_err_pos = 0#32 := rfl
@[simp] theorem State.decInit_d_err_cp : (s.decInit).d_err_cp = 0#21 := rfl
@[simp] theorem State.decInit_cmd_fault : (s.decInit).cmd_fault = s.cmd_fault := rfl
@[simp] theorem State.decInit_enc_out : (s.decInit).enc_out = s.enc_out := rfl
@[simp] theorem State.decInit_dec_out : (s.decInit).dec_out = s.dec_out := rfl
@[simp] theorem State.decInit_port : (s.decInit).port = s.port := rfl

@[simp] theorem State.setCmdFault_e_stage : (s.setCmdFault).e_stage = s.e_stage := rfl
@[simp] theorem State.setCmdFault_e_rem : (s.setCmdFault).e_rem = s.e_rem := rfl
@[simp] theorem State.setCmdFault_d_stage : (s.setCmdFault).d_stage = s.d_stage := rfl
@[simp] theorem State.setCmdFault_d_rem : (s.setCmdFault).d_rem = s.d_rem := rfl
@[simp] theorem State.setCmdFault_d_residue : (s.setCmdFault).d_residue = s.d_residue := rfl
@[simp] theorem State.setCmdFault_d_pend_valid : (s.setCmdFault).d_pend_valid = s.d_pend_valid := rfl
@[simp] theorem State.setCmdFault_d_pend_cp : (s.setCmdFault).d_pend_cp = s.d_pend_cp := rfl
@[simp] theorem State.setCmdFault_d_count : (s.setCmdFault).d_count = s.d_count := rfl
@[simp] theorem State.setCmdFault_d_err : (s.setCmdFault).d_err = s.d_err := rfl
@[simp] theorem State.setCmdFault_d_err_pos : (s.setCmdFault).d_err_pos = s.d_err_pos := rfl
@[simp] theorem State.setCmdFault_d_err_cp : (s.setCmdFault).d_err_cp = s.d_err_cp := rfl
@[simp] theorem State.setCmdFault_cmd_fault : (s.setCmdFault).cmd_fault = true := rfl
@[simp] theorem State.setCmdFault_enc_out : (s.setCmdFault).enc_out = s.enc_out := rfl
@[simp] theorem State.setCmdFault_dec_out : (s.setCmdFault).dec_out = s.dec_out := rfl
@[simp] theorem State.setCmdFault_port : (s.setCmdFault).port = s.port := rfl

@[simp] theorem raiseDecodeError_e_stage (code : ErrCode) (i : Pos) (c : CodePoint) : (raiseDecodeError s code i c).e_stage = s.e_stage := rfl
@[simp] theorem raiseDecodeError_e_rem (code : ErrCode) (i : Pos) (c : CodePoint) : (raiseDecodeError s code i c).e_rem = s.e_rem := rfl
@[simp] theorem raiseDecodeError_d_stage (code : ErrCode) (i : Pos) (c : CodePoint) : (raiseDecodeError s code i c).d_stage = s.d_stage := rfl
@[simp] theorem raiseDecodeError_d_rem (code : ErrCode) (i : Pos) (c : CodePoint) : (raiseDecodeError s code i c).d_rem = s.d_rem := rfl
@[simp] theorem raiseDecodeError_d_residue (code : ErrCode) (i : Pos) (c : CodePoint) : (raiseDecodeError s code i c).d_residue = s.d_residue := rfl
@[simp] theorem raiseDecodeError_d_pend_valid (code : ErrCode) (i : Pos) (c : CodePoint) : (raiseDecodeError s code i c).d_pend_valid = s.d_pend_valid := rfl
@[simp] theorem raiseDecodeError_d_pend_cp (code : ErrCode) (i : Pos) (c : CodePoint) : (raiseDecodeError s code i c).d_pend_cp = s.d_pend_cp := rfl
@[simp] theorem raiseDecodeError_d_count (code : ErrCode) (i : Pos) (c : CodePoint) : (raiseDecodeError s code i c).d_count = s.d_count := rfl
@[simp] theorem raiseDecodeError_d_err (code : ErrCode) (i : Pos) (c : CodePoint) : (raiseDecodeError s code i c).d_err = some code := rfl
@[simp] theorem raiseDecodeError_d_err_pos (code : ErrCode) (i : Pos) (c : CodePoint) : (raiseDecodeError s code i c).d_err_pos = i := rfl
@[simp] theorem raiseDecodeError_d_err_cp (code : ErrCode) (i : Pos) (c : CodePoint) : (raiseDecodeError s code i c).d_err_cp = c := rfl
@[simp] theorem raiseDecodeError_cmd_fault (code : ErrCode) (i : Pos) (c : CodePoint) : (raiseDecodeError s code i c).cmd_fault = s.cmd_fault := rfl
@[simp] theorem raiseDecodeError_enc_out (code : ErrCode) (i : Pos) (c : CodePoint) : (raiseDecodeError s code i c).enc_out = s.enc_out := rfl
@[simp] theorem raiseDecodeError_dec_out (code : ErrCode) (i : Pos) (c : CodePoint) : (raiseDecodeError s code i c).dec_out = s.dec_out := rfl
@[simp] theorem raiseDecodeError_port (code : ErrCode) (i : Pos) (c : CodePoint) : (raiseDecodeError s code i c).port = s.port := rfl

@[simp] theorem endDecodeCall_e_stage : (endDecodeCall s).e_stage = s.e_stage := rfl
@[simp] theorem endDecodeCall_e_rem : (endDecodeCall s).e_rem = s.e_rem := rfl
@[simp] theorem endDecodeCall_d_stage : (endDecodeCall s).d_stage = 0#8 := rfl
@[simp] theorem endDecodeCall_d_rem : (endDecodeCall s).d_rem = 0 := rfl
@[simp] theorem endDecodeCall_d_residue : (endDecodeCall s).d_residue = 0 := rfl
@[simp] theorem endDecodeCall_d_pend_valid : (endDecodeCall s).d_pend_valid = false := rfl
@[simp] theorem endDecodeCall_d_pend_cp : (endDecodeCall s).d_pend_cp = 0#21 := rfl
@[simp] theorem endDecodeCall_d_count : (endDecodeCall s).d_count = 0#32 := rfl
@[simp] theorem endDecodeCall_d_err : (endDecodeCall s).d_err = none := rfl
@[simp] theorem endDecodeCall_d_err_pos : (endDecodeCall s).d_err_pos = 0#32 := rfl
@[simp] theorem endDecodeCall_d_err_cp : (endDecodeCall s).d_err_cp = 0#21 := rfl
@[simp] theorem endDecodeCall_cmd_fault : (endDecodeCall s).cmd_fault = s.cmd_fault := rfl
@[simp] theorem endDecodeCall_enc_out : (endDecodeCall s).enc_out = s.enc_out := rfl
@[simp] theorem endDecodeCall_dec_out : (endDecodeCall s).dec_out = s.dec_out ++ [.decDone (callStatus s)] := rfl
@[simp] theorem endDecodeCall_port : (endDecodeCall s).port = s.port := rfl

@[simp] theorem applyReset_e_stage : (applyReset s).e_stage = 0#10 := rfl
@[simp] theorem applyReset_e_rem : (applyReset s).e_rem = 0 := rfl
@[simp] theorem applyReset_d_stage : (applyReset s).d_stage = 0#8 := rfl
@[simp] theorem applyReset_d_rem : (applyReset s).d_rem = 0 := rfl
@[simp] theorem applyReset_d_residue : (applyReset s).d_residue = 0 := rfl
@[simp] theorem applyReset_d_pend_valid : (applyReset s).d_pend_valid = false := rfl
@[simp] theorem applyReset_d_pend_cp : (applyReset s).d_pend_cp = 0#21 := rfl
@[simp] theorem applyReset_d_count : (applyReset s).d_count = 0#32 := rfl
@[simp] theorem applyReset_d_err : (applyReset s).d_err = none := rfl
@[simp] theorem applyReset_d_err_pos : (applyReset s).d_err_pos = 0#32 := rfl
@[simp] theorem applyReset_d_err_cp : (applyReset s).d_err_cp = 0#21 := rfl
@[simp] theorem applyReset_cmd_fault : (applyReset s).cmd_fault = false := rfl
@[simp] theorem applyReset_enc_out : (applyReset s).enc_out = s.enc_out := rfl
@[simp] theorem applyReset_dec_out : (applyReset s).dec_out = s.dec_out := rfl
@[simp] theorem applyReset_port : (applyReset s).port = s.port := rfl

@[simp] theorem present_e_stage (e : HostEvent) : (present s e).e_stage = s.e_stage := rfl
@[simp] theorem present_e_rem (e : HostEvent) : (present s e).e_rem = s.e_rem := rfl
@[simp] theorem present_d_stage (e : HostEvent) : (present s e).d_stage = s.d_stage := rfl
@[simp] theorem present_d_rem (e : HostEvent) : (present s e).d_rem = s.d_rem := rfl
@[simp] theorem present_d_residue (e : HostEvent) : (present s e).d_residue = s.d_residue := rfl
@[simp] theorem present_d_pend_valid (e : HostEvent) : (present s e).d_pend_valid = s.d_pend_valid := rfl
@[simp] theorem present_d_pend_cp (e : HostEvent) : (present s e).d_pend_cp = s.d_pend_cp := rfl
@[simp] theorem present_d_count (e : HostEvent) : (present s e).d_count = s.d_count := rfl
@[simp] theorem present_d_err (e : HostEvent) : (present s e).d_err = s.d_err := rfl
@[simp] theorem present_d_err_pos (e : HostEvent) : (present s e).d_err_pos = s.d_err_pos := rfl
@[simp] theorem present_d_err_cp (e : HostEvent) : (present s e).d_err_cp = s.d_err_cp := rfl
@[simp] theorem present_cmd_fault (e : HostEvent) : (present s e).cmd_fault = s.cmd_fault := rfl
@[simp] theorem present_enc_out (e : HostEvent) : (present s e).enc_out = s.enc_out := rfl
@[simp] theorem present_dec_out (e : HostEvent) : (present s e).dec_out = s.dec_out := rfl
@[simp] theorem present_port (e : HostEvent) : (present s e).port = e :: s.port := rfl

end Sys2Proof.Machine
end

