-- ==== Sys2Proof/Laws/Ops.lean ====
section
/-! SUPPORT. What each shared operation can do, said once: the checks and the loop of PROCESS, PROCESS itself, the end of a
decode call, the host events. -/

namespace Sys2Proof.Machine

/-! The loop of step 6 (spec/41_decoder.md R130, R134). -/

/-- The number whose base-256 digits, the most significant first, are the bytes. -/
def bytesValue (bs : List Byte) : Nat := bs.foldl (fun n b => n * 2 ^ 8 + b.toNat) 0

/-- The loop leaves at most 8 bits, at least one if there was one, and takes 8 for each byte. -/
theorem drainRounds_length (fuel acc r : Nat) (hf : r ≤ 8 * fuel + 8) :
    (drainRounds fuel acc r).2.2 ≤ 8 ∧ r = 8 * (drainRounds fuel acc r).1.length + (drainRounds fuel acc r).2.2 ∧
      (0 < r → 0 < (drainRounds fuel acc r).2.2) := by
  induction fuel generalizing acc r with
  | zero => simp only [drainRounds, List.length_nil]; omega
  | succ fuel ih =>
    by_cases h : r > 8
    · have := ih (acc &&& mask (r - 8)) (r - 8) (by omega)
      simp only [drainRounds, if_pos h, List.length_cons]; omega
    · simp only [drainRounds, if_neg h, List.length_nil]; omega

/-- What is left and how many bytes leave depends on the bit count alone. -/
theorem drain_length (acc r : Nat) :
    (drain acc r).2.2 ≤ 8 ∧ r = 8 * (drain acc r).1.length + (drain acc r).2.2 ∧ (0 < r → 0 < (drain acc r).2.2) :=
  drainRounds_length r acc r (by omega)

/-- The loop loses no bit: the bytes it emits and the bits it leaves are the bits it was given. -/
theorem drainRounds_value (fuel acc r n : Nat) (hf : r ≤ 8 * fuel + 8) (ha : acc < 2 ^ r) :
    (drainRounds fuel acc r).2.1 < 2 ^ (drainRounds fuel acc r).2.2 ∧
      n * 2 ^ r + acc =
        ((drainRounds fuel acc r).1.foldl (fun n b => n * 2 ^ 8 + b.toNat) n) * 2 ^ (drainRounds fuel acc r).2.2 +
          (drainRounds fuel acc r).2.1 := by
  induction fuel generalizing acc r n with
  | zero => exact ⟨ha, rfl⟩
  | succ fuel ih =>
    by_cases h : r > 8
    · have hlt : acc % 2 ^ (r - 8) < 2 ^ (r - 8) := Nat.mod_lt _ (by positivity)
      have hr : (2 : Nat) ^ r = 2 ^ 8 * 2 ^ (r - 8) := by rw [← pow_add]; congr 1; omega
      have hb : (trunc8 (acc >>> (r - 8))).toNat = acc / 2 ^ (r - 8) := by
        rw [trunc8, BitVec.toNat_ofNat, Nat.shiftRight_eq_div_pow]
        exact Nat.mod_eq_of_lt ((Nat.div_lt_iff_lt_mul (by positivity)).2 (hr ▸ ha))
      have := ih (acc % 2 ^ (r - 8)) (r - 8) (n * 2 ^ 8 + acc / 2 ^ (r - 8)) (by omega) hlt
      simp only [drainRounds, if_pos h, and_mask, List.foldl_cons, hb]
      refine ⟨this.1, ?_⟩
      rw [← this.2, hr]
      have := Nat.div_add_mod acc (2 ^ (r - 8))
      linarith
    · simp only [drainRounds, if_neg h]
      exact ⟨ha, rfl⟩

/-- `drainRounds_value` for the loop from its start. -/
theorem drain_value {acc r : Nat} (ha : acc < 2 ^ r) :
    (drain acc r).2.1 < 2 ^ (drain acc r).2.2 ∧
      acc = bytesValue (drain acc r).1 * 2 ^ (drain acc r).2.2 + (drain acc r).2.1 := by
  have h := drainRounds_value r acc r 0 (by omega) ha
  rw [Nat.zero_mul, Nat.zero_add] at h
  exact h

/-- No round with at most 8 bits. -/
theorem drain_of_le {acc r : Nat} (h : r ≤ 8) : drain acc r = ([], acc, r) := by
  cases r with
  | zero => rfl
  | succ n => simp only [drain, drainRounds, if_neg (by omega : ¬ n + 1 > 8)]

/-- One round of the loop. -/
theorem drainRounds_succ_of_gt {fuel acc r : Nat} (h : 8 < r) :
    drainRounds (fuel + 1) acc r =
      (trunc8 (acc / 2 ^ (r - 8)) :: (drainRounds fuel (acc % 2 ^ (r - 8)) (r - 8)).1,
        (drainRounds fuel (acc % 2 ^ (r - 8)) (r - 8)).2) := by
  simp only [drainRounds, if_pos (show r > 8 from h), and_mask, Nat.shiftRight_eq_div_pow]

/-- No round left with at most 8 bits, whatever the fuel. -/
theorem drainRounds_of_le {fuel acc r : Nat} (h : r ≤ 8) : drainRounds fuel acc r = ([], acc, r) := by
  cases fuel with
  | zero => rfl
  | succ n => simp only [drainRounds, if_neg (by omega : ¬ r > 8)]

/-- One byte leaves when 9 to 16 bits are there. -/
theorem drain_one {acc r : Nat} (h : 8 < r) (h' : r ≤ 16) :
    drain acc r = ([trunc8 (acc / 2 ^ (r - 8))], acc % 2 ^ (r - 8), r - 8) := by
  obtain ⟨n, rfl⟩ : ∃ n, r = n + 1 := ⟨r - 1, by omega⟩
  rw [drain, drainRounds_succ_of_gt h, drainRounds_of_le (by omega)]

/-- Two bytes leave when 17 to 24 bits are there. -/
theorem drain_two {acc r : Nat} (h : 16 < r) (h' : r ≤ 24) :
    drain acc r =
      ([trunc8 (acc / 2 ^ (r - 8)), trunc8 (acc % 2 ^ (r - 8) / 2 ^ (r - 16))], acc % 2 ^ (r - 16), r - 16) := by
  obtain ⟨n, rfl⟩ : ∃ n, r = n + 2 := ⟨r - 2, by omega⟩
  rw [drain, drainRounds_succ_of_gt (by omega), drainRounds_succ_of_gt (by omega), drainRounds_of_le (by omega)]
  have hd : (2 : Nat) ^ (n + 2 - 16) ∣ 2 ^ (n + 2 - 8) := pow_dvd_pow 2 (by omega)
  rw [show n + 2 - 8 - 8 = n + 2 - 16 by omega, Nat.mod_mod_of_dvd _ hd]

/-- A flush of exactly 8 bits is their byte. -/
theorem finalFlush_eight (acc : Nat) : finalFlush acc 8 = [trunc8 acc] := rfl

/-! The checks (spec/41_decoder.md R130 steps 2 to 4). -/

/-- Everything the checks can answer, with what each answer means. -/
theorem checkSymbol_cases (T : Tables) (c : CodePoint) (last : Bool) (res : Fin 8) (rem : Fin 9) :
    (T.maxCp < c ∧ checkSymbol T c last res rem = .error .invalidCharacter) ∨
    (c ≤ T.maxCp ∧ ∃ v, T.dec c = .data v ∧ checkSymbol T c last res rem = .ok (dataBits last res, v.toNat)) ∨
    (c ≤ T.maxCp ∧ T.dec c = .term ∧ last = false ∧
      checkSymbol T c last res rem = .error .unexpectedAfterTerminator) ∨
    (c ≤ T.maxCp ∧ T.dec c = .term ∧ last = true ∧ tailIndex T c = none ∧
      checkSymbol T c last res rem = .error .invalidTerminationCharacter) ∨
    (c ≤ T.maxCp ∧ T.dec c = .term ∧ last = true ∧ ∃ t, tailIndex T c = some t ∧ 2 ^ tailBits rem ≤ t.toNat ∧
      checkSymbol T c last res rem = .error .invalidTailCharacter) ∨
    (c ≤ T.maxCp ∧ T.dec c = .term ∧ last = true ∧ ∃ t, tailIndex T c = some t ∧ t.toNat < 2 ^ tailBits rem ∧
      checkSymbol T c last res rem = .ok (tailBits rem, t.toNat)) := by
  unfold checkSymbol
  by_cases hm : T.maxCp < c
  · exact .inl ⟨hm, if_pos hm⟩
  · have hle : c ≤ T.maxCp := by bv_omega
    rw [if_neg hm]
    cases hd : T.dec c with
    | data v => exact .inr (.inl ⟨hle, v, rfl, rfl⟩)
    | term =>
      cases last with
      | false => exact .inr (.inr (.inl ⟨hle, rfl, rfl, rfl⟩))
      | true =>
        cases ht : tailIndex T c with
        | none => exact .inr (.inr (.inr (.inl ⟨hle, rfl, rfl, rfl, rfl⟩)))
        | some t =>
          by_cases hb : 2 ^ tailBits rem ≤ t.toNat
          · exact .inr (.inr (.inr (.inr (.inl ⟨hle, rfl, rfl, t, rfl, hb, by simp [hb]⟩))))
          · exact .inr (.inr (.inr (.inr (.inr ⟨hle, rfl, rfl, t, rfl, by omega, by simp [hb]⟩))))

/-! PROCESS (spec/41_decoder.md R130). -/

/-- A symbol that fails a check latches the error and does nothing else. -/
theorem process_error {T : Tables} {c : CodePoint} {last : Bool} {s : State} {code : ErrCode} (i : Pos)
    (h : checkSymbol T c last (nextResidue s.d_residue) s.d_rem = .error code) :
    process T c i last s = raiseDecodeError s code i c := by
  simp only [process, h]

/-- A symbol that passes as not last: whole bytes leave, the rest is kept. -/
theorem process_ok_notLast {T : Tables} {c : CodePoint} {s : State} {k v : Nat} (i : Pos)
    (h : checkSymbol T c false (nextResidue s.d_residue) s.d_rem = .ok (k, v)) :
    process T c i false s =
      (s.emitBytes (drain (merge s.d_stage k v) (s.d_rem.val + k)).1).setDec
        (BitVec.ofNat 8 (drain (merge s.d_stage k v) (s.d_rem.val + k)).2.1)
        (Fin.ofNat 9 (drain (merge s.d_stage k v) (s.d_rem.val + k)).2.2) (nextResidue s.d_residue) := by
  simp only [process, h]; rfl

/-- A symbol that passes as last: whole bytes leave, then the final flush. -/
theorem process_ok_last {T : Tables} {c : CodePoint} {s : State} {k v : Nat} (i : Pos)
    (h : checkSymbol T c true (nextResidue s.d_residue) s.d_rem = .ok (k, v)) :
    process T c i true s =
      s.emitBytes ((drain (merge s.d_stage k v) (s.d_rem.val + k)).1 ++
        finalFlush (drain (merge s.d_stage k v) (s.d_rem.val + k)).2.1
          (drain (merge s.d_stage k v) (s.d_rem.val + k)).2.2) := by
  simp only [process, h]; rfl

/-- Everything PROCESS can do: it latches an error, or it emits bytes and (only for a symbol that is not last) writes the
accumulator, its counter and the residue. -/
theorem process_cases (T : Tables) (c : CodePoint) (i : Pos) (last : Bool) (s : State) :
    (∃ code, checkSymbol T c last (nextResidue s.d_residue) s.d_rem = .error code ∧
      process T c i last s = raiseDecodeError s code i c) ∨
    (∃ k v bs, checkSymbol T c last (nextResidue s.d_residue) s.d_rem = .ok (k, v) ∧
      ((last = true ∧ process T c i last s = s.emitBytes bs) ∨
       (last = false ∧ ∃ a r, process T c i last s = (s.emitBytes bs).setDec a r (nextResidue s.d_residue)))) := by
  cases hc : checkSymbol T c last (nextResidue s.d_residue) s.d_rem with
  | error code => exact .inl ⟨code, rfl, process_error i hc⟩
  | ok kv =>
    obtain ⟨k, v⟩ := kv
    cases last with
    | true => exact .inr ⟨k, v, _, rfl, .inl ⟨rfl, process_ok_last i hc⟩⟩
    | false => exact .inr ⟨k, v, _, rfl, .inr ⟨rfl, _, _, process_ok_notLast i hc⟩⟩

/-- PROCESS of the pending symbol, when there is one. -/
theorem processPending_of_pend {T : Tables} {last : Bool} {s : State} (h : s.d_pend_valid = true) :
    processPending T last s = process T s.d_pend_cp (pendPos s) last s := if_pos h

/-- Nothing is processed when no symbol is pending. -/
theorem processPending_of_idle {T : Tables} {last : Bool} {s : State} (h : s.d_pend_valid = false) :
    processPending T last s = s := by simp [processPending, h]

/-! The end of a decode call and the host events. -/

/-- With no error latched the call's status is OK. -/
theorem callStatus_of_none {s : State} (h : s.d_err = none) : callStatus s = .ok := by simp [callStatus, h]

/-- With an error latched the status is that error. -/
theorem callStatus_of_some {s : State} {code : ErrCode} (h : s.d_err = some code) :
    callStatus s = .err code s.d_err_pos s.d_err_cp := by simp [callStatus, h]

/-- Nothing to take from an empty port. -/
theorem takeEvent_of_nil {s : State} (h : s.port = []) : takeEvent s = none := by simp [takeEvent, h]

/-- The first event is taken and the rest stays. -/
theorem takeEvent_of_cons {s : State} {e : HostEvent} {rest : List HostEvent} (h : s.port = e :: rest) :
    takeEvent s = some (e, { s with port := rest }) := by simp [takeEvent, h]

end Sys2Proof.Machine
end

