-- ==== Sys2Proof/Laws/Decoder.lean ====
section
/-! SUPPORT. What the decoder's commands do, one lemma per case. -/

namespace Sys2Proof.Machine

/-- DEC_SYM in a failed call. -/
theorem decSymEffect_failed (T : Tables) (c : CodePoint) {s : State} {code : ErrCode} (h : s.d_err = some code) :
    decSymEffect T c s = s := by simp only [decSymEffect, h]

/-- DEC_SYM with no symbol pending. -/
theorem decSymEffect_first (T : Tables) (c : CodePoint) {s : State} (h : s.d_err = none)
    (hp : s.d_pend_valid = false) : decSymEffect T c s = s.holdPending c := by
  simp only [decSymEffect, h, processPending_of_idle hp]

/-- DEC_SYM when the pending symbol fails a check. -/
theorem decSymEffect_raise (T : Tables) (c : CodePoint) {s : State} {code : ErrCode} (h : s.d_err = none)
    (hp : s.d_pend_valid = true)
    (hc : checkSymbol T s.d_pend_cp false (nextResidue s.d_residue) s.d_rem = .error code) :
    decSymEffect T c s = raiseDecodeError s code (pendPos s) s.d_pend_cp := by
  simp only [decSymEffect, h, processPending_of_pend hp, process_error (pendPos s) hc, raiseDecodeError_d_err]

/-- DEC_SYM when the pending symbol passes. -/
theorem decSymEffect_pass (T : Tables) (c : CodePoint) {s : State} {k v : Nat} (h : s.d_err = none)
    (hp : s.d_pend_valid = true)
    (hc : checkSymbol T s.d_pend_cp false (nextResidue s.d_residue) s.d_rem = .ok (k, v)) :
    decSymEffect T c s = (process T s.d_pend_cp (pendPos s) false s).holdPending c := by
  simp only [decSymEffect, h, processPending_of_pend hp, process_ok_notLast (pendPos s) hc, State.setDec_d_err,
    State.emitBytes_d_err]

/-- DEC_END in a failed call. -/
theorem decEndEffect_failed (T : Tables) {s : State} {code : ErrCode} (h : s.d_err = some code) :
    decEndEffect T s = endDecodeCall s := by simp only [decEndEffect, h]

/-- DEC_END on an empty call. -/
theorem decEndEffect_empty (T : Tables) {s : State} (h : s.d_err = none) (hp : s.d_pend_valid = false) :
    decEndEffect T s = endDecodeCall s := by simp only [decEndEffect, h, processPending_of_idle hp]

/-- DEC_END processes the pending symbol as last. -/
theorem decEndEffect_pend (T : Tables) {s : State} (h : s.d_err = none) (hp : s.d_pend_valid = true) :
    decEndEffect T s = endDecodeCall (process T s.d_pend_cp (pendPos s) true s) := by
  simp only [decEndEffect, h, processPending_of_pend hp]

/-- Everything DEC_SYM can do. -/
theorem decSymEffect_cases (T : Tables) (c : CodePoint) (s : State) :
    ((∃ code, s.d_err = some code) ∧ decSymEffect T c s = s) ∨
    (s.d_err = none ∧ s.d_pend_valid = false ∧ decSymEffect T c s = s.holdPending c) ∨
    (s.d_err = none ∧ s.d_pend_valid = true ∧ ∃ code,
      checkSymbol T s.d_pend_cp false (nextResidue s.d_residue) s.d_rem = .error code ∧
      decSymEffect T c s = raiseDecodeError s code (pendPos s) s.d_pend_cp) ∨
    (s.d_err = none ∧ s.d_pend_valid = true ∧ ∃ k v,
      checkSymbol T s.d_pend_cp false (nextResidue s.d_residue) s.d_rem = .ok (k, v) ∧
      decSymEffect T c s = (process T s.d_pend_cp (pendPos s) false s).holdPending c) := by
  cases he : s.d_err with
  | some code => exact .inl ⟨⟨code, rfl⟩, decSymEffect_failed T c he⟩
  | none =>
    cases hp : s.d_pend_valid with
    | false => exact .inr (.inl ⟨rfl, rfl, decSymEffect_first T c he hp⟩)
    | true =>
      cases hc : checkSymbol T s.d_pend_cp false (nextResidue s.d_residue) s.d_rem with
      | error code => exact .inr (.inr (.inl ⟨rfl, rfl, code, rfl, decSymEffect_raise T c he hp hc⟩))
      | ok kv => exact .inr (.inr (.inr ⟨rfl, rfl, kv.1, kv.2, rfl, decSymEffect_pass T c he hp hc⟩))

/-- Everything DEC_END can do: the end of the call, in the state as it is or with the pending symbol processed as last. -/
theorem decEndEffect_cases (T : Tables) (s : State) :
    ((∃ code, s.d_err = some code) ∧ decEndEffect T s = endDecodeCall s) ∨
    (s.d_err = none ∧ s.d_pend_valid = false ∧ decEndEffect T s = endDecodeCall s) ∨
    (s.d_err = none ∧ s.d_pend_valid = true ∧
      decEndEffect T s = endDecodeCall (process T s.d_pend_cp (pendPos s) true s)) := by
  cases he : s.d_err with
  | some code => exact .inl ⟨⟨code, rfl⟩, decEndEffect_failed T he⟩
  | none =>
    cases hp : s.d_pend_valid with
    | false => exact .inr (.inl ⟨rfl, rfl, decEndEffect_empty T he hp⟩)
    | true => exact .inr (.inr ⟨rfl, rfl, decEndEffect_pend T he hp⟩)

end Sys2Proof.Machine
end

