-- ==== Sys2Proof/Laws/Encoder.lean ====
section
/-! SUPPORT. What the encoder's commands do, one lemma per branch. -/

namespace Sys2Proof.Machine

/-- ENC_BYTE when the byte completes a group. -/
theorem encByteEffect_emit (T : Tables) (b : Byte) {s : State} (h : 3 ≤ s.e_rem.val) :
    encByteEffect T b s =
      (s.emitE (.sym (T.enc (encAddress (encIndex s.e_stage.toNat (encNeed s.e_rem.val) b.toNat))))).setEnc
        (BitVec.ofNat 10 (b.toNat % 2 ^ (s.e_rem.val - 3))) (Fin.ofNat 11 (s.e_rem.val - 3)) := by
  have hr := s.e_rem.isLt
  have hn : encNeed s.e_rem.val ≤ 8 := by unfold encNeed; omega
  have hl : 8 - encNeed s.e_rem.val = s.e_rem.val - 3 := by unfold encNeed; omega
  simp only [encByteEffect, if_pos hn, and_mask, hl]

/-- ENC_BYTE when the byte is folded in. -/
theorem encByteEffect_fold (T : Tables) (b : Byte) {s : State} (h : s.e_rem.val ≤ 2) :
    encByteEffect T b s =
      s.setEnc (BitVec.ofNat 10 (s.e_stage.toNat * 2 ^ 8 + b.toNat)) (Fin.ofNat 11 (s.e_rem.val + 8)) := by
  have hn : ¬ encNeed s.e_rem.val ≤ 8 := by unfold encNeed; omega
  simp only [encByteEffect, if_neg hn, shiftLeft_or_of_lt b.isLt]

/-- Everything ENC_BYTE can do: at most one symbol leaves, and only the encoder's registers are written. -/
theorem encByteEffect_cases (T : Tables) (b : Byte) (s : State) :
    (3 ≤ s.e_rem.val ∧ ∃ v a r, encByteEffect T b s = (s.emitE (.sym (T.enc v))).setEnc a r) ∨
    (s.e_rem.val ≤ 2 ∧ ∃ a r, encByteEffect T b s = s.setEnc a r) := by
  rcases Nat.lt_or_ge s.e_rem.val 3 with h | h
  · exact .inr ⟨by omega, _, _, encByteEffect_fold T b (by omega)⟩
  · exact .inl ⟨h, _, _, _, encByteEffect_emit T b h⟩

/-- Everything ENC_END can do: no symbol, a tail symbol or a main symbol, then EncDone and `ENC_INIT`. -/
theorem encEndEffect_cases (T : Tables) (s : State) :
    (s.e_rem.val = 0 ∧ encEndEffect T s = (s.emitE .encDone).encInit) ∨
    (0 < s.e_rem.val ∧ s.e_rem.val ≤ 3 ∧
      encEndEffect T s = ((s.emitE (.sym (T.tail (s.e_stage.setWidth 3)))).emitE .encDone).encInit) ∨
    (4 ≤ s.e_rem.val ∧
      encEndEffect T s = ((s.emitE (.sym (T.enc (s.e_stage.setWidth 11)))).emitE .encDone).encInit) := by
  by_cases h0 : s.e_rem.val = 0
  · exact .inl ⟨h0, by simp only [encEndEffect, finalSymbol, if_pos h0]⟩
  · by_cases h3 : s.e_rem.val ≤ 3
    · exact .inr (.inl ⟨by omega, h3, by simp only [encEndEffect, finalSymbol, if_neg h0, if_pos h3]⟩)
    · exact .inr (.inr ⟨by omega, by simp only [encEndEffect, finalSymbol, if_neg h0, if_neg h3]⟩)

end Sys2Proof.Machine
end

