-- ==== Sys2Proof/Laws/Step.lean ====
section
/-! SUPPORT. What a step can do, said once. -/

namespace Sys2Proof.Machine

/-- A step with nothing presented. -/
theorem stepUsing_of_nil {ex : Instr → State → Host.Outcome State Fault Refusal} {s : State} (h : s.port = []) :
    stepUsing ex s = .next s := by simp only [stepUsing, takeEvent_of_nil h, waitForHost]

/-- A step on a reset event. -/
theorem stepUsing_of_reset {ex : Instr → State → Host.Outcome State Fault Refusal} {s : State} {rest : List HostEvent}
    (h : s.port = .reset :: rest) : stepUsing ex s = .next (applyReset { s with port := rest }) := by
  simp only [stepUsing, takeEvent_of_cons h]

/-- A step on a legal word. -/
theorem stepUsing_of_legal {ex : Instr → State → Host.Outcome State Fault Refusal} {s : State} {w : Word}
    {rest : List HostEvent} {i : Instr} (h : s.port = .word w :: rest) (hd : decode w = .ok i) :
    stepUsing ex s = ex i { s with port := rest } := by
  simp only [stepUsing, takeEvent_of_cons h, hd]

/-- A step on an illegal word. -/
theorem stepUsing_of_illegal {ex : Instr → State → Host.Outcome State Fault Refusal} {s : State} {w : Word}
    {rest : List HostEvent} {e : IllegalWord} (h : s.port = .word w :: rest) (hd : decode w = .error e) :
    stepUsing ex s = .next (State.setCmdFault { s with port := rest }) := by
  simp only [stepUsing, takeEvent_of_cons h, hd]

/-- Each meaning is its effect at this machine's tables. -/
theorem exec_eq_effect (i : Instr) (s : State) : exec i s = .next (effectWith Config.tables i s) := by
  cases i <;> rfl

/-- Everything a step can do: wait, reset, run a legal command's effect, or set `cmd_fault`. -/
theorem step_cases (s : State) :
    (s.port = [] ∧ step s = .next s) ∨
    (∃ rest, s.port = .reset :: rest ∧ step s = .next (applyReset { s with port := rest })) ∨
    (∃ w rest i, s.port = .word w :: rest ∧ decode w = .ok i ∧
      step s = .next (effectWith Config.tables i { s with port := rest })) ∨
    (∃ w rest e, s.port = .word w :: rest ∧ decode w = .error e ∧
      step s = .next (State.setCmdFault { s with port := rest })) := by
  cases hp : s.port with
  | nil => exact .inl ⟨rfl, stepUsing_of_nil hp⟩
  | cons e rest =>
    cases e with
    | reset => exact .inr (.inl ⟨rest, rfl, stepUsing_of_reset hp⟩)
    | word w =>
      cases hd : decode w with
      | ok i => exact .inr (.inr (.inl ⟨w, rest, i, rfl, hd, (stepUsing_of_legal hp hd).trans (exec_eq_effect i _)⟩))
      | error e => exact .inr (.inr (.inr ⟨w, rest, e, rfl, hd, stepUsing_of_illegal hp hd⟩))

end Sys2Proof.Machine
end

