-- ==== Sys2Proof/Laws/Calls.lean ====
section
/-! SUPPORT. Runs cut into parts, what the host meets in them, and the reading of results, one lemma per case. -/

namespace Sys2Proof.Machine

/-- A run of two parts. -/
theorem runEvents_append (T : Tables) (es es' : List HostEvent) (s : State) :
    runEvents T (es ++ es') s = runEvents T es' (runEvents T es s) := List.foldl_append

/-- What the host meets in a run of two parts. -/
theorem runSeen_append {α : Type} (out : State → List α) (T : Tables) (es es' : List HostEvent) (s : State) :
    runSeen out T (es ++ es') s = runSeen out T es s ++ runSeen out T es' (runEvents T es s) := by
  induction es generalizing s with
  | nil => rfl
  | cons e es ih =>
    rw [List.cons_append, runSeen, ih, ← List.append_assoc]; rfl

/-- A word adds the tokens it appended. -/
theorem eventSeen_of_append {α : Type} {out : State → List α} {T : Tables} {w : Word} {s : State} {ts : List α}
    (h : out (eventEffect T (.word w) s) = out s ++ ts) : eventSeen out T (.word w) s = ts.map Seen.token := by
  rw [eventSeen, h, List.drop_left]

@[simp] theorem encResultsFrom_nil (acc : List CodePoint) : encResultsFrom acc [] = [] := rfl
@[simp] theorem encResultsFrom_sym (acc : List CodePoint) (cp : CodePoint) (ts : List (Seen EncToken)) :
    encResultsFrom acc (.token (.sym cp) :: ts) = encResultsFrom (acc ++ [cp]) ts := rfl
@[simp] theorem encResultsFrom_encDone (acc : List CodePoint) (ts : List (Seen EncToken)) :
    encResultsFrom acc (.token .encDone :: ts) = acc :: encResultsFrom [] ts := rfl
@[simp] theorem encResultsFrom_reset (acc : List CodePoint) (ts : List (Seen EncToken)) :
    encResultsFrom acc (.reset :: ts) = encResultsFrom [] ts := rfl

@[simp] theorem decResultsFrom_nil (acc : List Byte) : decResultsFrom acc [] = [] := rfl
@[simp] theorem decResultsFrom_byte (acc : List Byte) (b : Byte) (ts : List (Seen DecToken)) :
    decResultsFrom acc (.token (.byte b) :: ts) = decResultsFrom (acc ++ [b]) ts := rfl
@[simp] theorem decResultsFrom_decDone (acc : List Byte) (st : Status) (ts : List (Seen DecToken)) :
    decResultsFrom acc (.token (.decDone st) :: ts) = decResultOf acc st :: decResultsFrom [] ts := rfl
@[simp] theorem decResultsFrom_reset (acc : List Byte) (ts : List (Seen DecToken)) :
    decResultsFrom acc (.reset :: ts) = decResultsFrom [] ts := rfl

end Sys2Proof.Machine
end

