-- ==== Sys2Proof/Laws/Decode.lean ====
section
/-! SUPPORT. The decoder and the encoder: the operand ranges hold by type, and the opcode table's rows are apart. -/

namespace Sys2Proof

/-- No term of `Instr` is ill-formed: the operands' types carry their ranges. -/
theorem Instr.wellFormed_always (i : Instr) : i.wellFormed = true := by
  cases i with
  | encByte b => exact decide_eq_true b.isLt
  | encEnd => rfl
  | decSym c => exact decide_eq_true c.isLt
  | decEnd => rfl

/-- Any two rows of the opcode table differ in a bit both require (spec/30_encoding.md R76: "do not overlap"). -/
theorem opcodeTable_rows_apart :
    opcodeTable.Pairwise fun r r' => (r.pattern ^^^ r'.pattern) &&& (r.mask &&& r'.mask) ≠ 0#32 := by decide

/-- No row requires a bit its mask does not cover. -/
theorem opcodeTable_patterns_masked : ∀ r ∈ opcodeTable, r.pattern &&& r.mask = r.pattern := by decide

/-- A word of 32 table bits is itself. -/
theorem tableWord_toNat {w : Nat} (h : w < 2 ^ 32) : (tableWord 32 w).toNat = w := by
  rw [tableWord, BitVec.toNat_ofNat, Nat.mod_mod, Nat.mod_eq_of_lt h]

end Sys2Proof
end

