-- ==== Sys2Proof/Laws/PerInstr.lean ====
section
/-! SUPPORT. A statement about every command as syntax, one lemma per constructor. -/

namespace Sys2Proof.Laws.MatchesRow

/-- The row of the opcode table a command belongs to (spec/30_encoding.md R74). -/
def row : Instr → OpcodeRow
  | .encByte _ => ⟨"ENC_BYTE", 0xFFFFFF00#32, 0x01000000#32⟩
  | .encEnd => ⟨"ENC_END", 0xFFFFFFFF#32, 0x02000000#32⟩
  | .decSym _ => ⟨"DEC_SYM", 0xFFE00000#32, 0x10000000#32⟩
  | .decEnd => ⟨"DEC_END", 0xFFFFFFFF#32, 0x11000000#32⟩

/-- The command's row is in the table and its word matches it. -/
def Statement (i : Instr) : Prop := row i ∈ opcodeTable ∧ encode i &&& (row i).mask = (row i).pattern

theorem encByte (b : Byte) : Statement (.encByte b) := by
  refine ⟨.head _, BitVec.eq_of_getLsbD_eq fun k hk => ?_⟩
  interval_cases k <;> simp [encode, row]

theorem encEnd : Statement .encEnd := ⟨.tail _ (.head _), rfl⟩

theorem decSym (c : CodePoint) : Statement (.decSym c) := by
  refine ⟨.tail _ (.tail _ (.head _)), BitVec.eq_of_getLsbD_eq fun k hk => ?_⟩
  interval_cases k <;> simp [encode, row]

theorem decEnd : Statement .decEnd := ⟨.tail _ (.tail _ (.tail _ (.head _))), rfl⟩

end Sys2Proof.Laws.MatchesRow
end

