-- ==== Sys2Proof/Tests/Slice0.lean ====
section
/-! SUPPORT. Tests of single steps against the vectors of spec/95_test_vectors.md, the refusals of the checks, and for each
statement of the obligations that has hypotheses a concrete state and operands that meet them. Where a statement quantifies
over tables, they are those of the spec's test fixture (95_test_vectors.md 0). -/

namespace Sys2Proof.Tests

open Sys2Proof.Machine

/-! The test fixture of spec/95_test_vectors.md 0. -/

/-- `ENC_TABLE[v] = 0x100 + v`, `TAIL_TABLE[j] = 0xBB8 + j`, `MAXCP = 4339`, every other code point `Term`. -/
def fixture : Tables where
  enc v := BitVec.ofNat 21 (0x100 + v.toNat)
  tail j := BitVec.ofNat 21 (0xBB8 + j.toNat)
  dec c := if 0x100 ≤ c.toNat ∧ c.toNat ≤ 0x8FF then .data (BitVec.ofNat 11 (c.toNat - 0x100)) else .term
  maxCp := 4339#21

/-- `M(v)` and `T(j)` in the fixture. -/
abbrev M (v : SymValue) : CodePoint := fixture.enc v

/-- `T(j)` in the fixture. -/
abbrev T (j : TailIndex) : CodePoint := fixture.tail j

/-- The fixture's reverse table on the main alphabet. -/
theorem fixture_dec (c : CodePoint) (h : 0x100 ≤ c.toNat ∧ c.toNat ≤ 0x8FF) :
    fixture.dec c = .data (BitVec.ofNat 11 (c.toNat - 0x100)) := if_pos h

/-- The fixture's forward table as numbers. -/
theorem fixture_enc_toNat (v : SymValue) : (fixture.enc v).toNat = 0x100 + v.toNat :=
  Nat.mod_eq_of_lt (by have := v.isLt; omega)

/-- "The fixture satisfies T1 to T4" (95_test_vectors.md 0): T1. -/
theorem fixture_T1 : fixture.T1 := by
  intro v
  have hv := v.isLt
  have he := fixture_enc_toNat v
  refine ⟨?_, ?_⟩
  · rw [BitVec.le_def, he, show fixture.maxCp.toNat = 4339 from rfl]; omega
  · rw [fixture_dec _ ⟨by omega, by omega⟩, he, Nat.add_sub_cancel_left, BitVec.ofNat_toNat, BitVec.setWidth_eq]

/-- T2 and T3. -/
theorem fixture_T2_T3 : fixture.T2 ∧ fixture.T3 := by
  constructor
  · unfold Tables.T2; decide
  · unfold Tables.T3; decide

/-- The premise of the round-trip claims can be met. -/
theorem fixture_WF : fixture.WF := ⟨fixture_T1, fixture_T2_T3.1, fixture_T2_T3.2⟩

/-- T4. -/
theorem fixture_T4 : fixture.T4 := by
  intro c v _ h
  by_cases hc : 0x100 ≤ c.toNat ∧ c.toNat ≤ 0x8FF
  · rw [fixture_dec c hc] at h
    have hv : v = BitVec.ofNat 11 (c.toNat - 0x100) := (DecEntry.data.inj h).symm
    apply BitVec.eq_of_toNat_eq
    rw [fixture_enc_toNat, hv, BitVec.toNat_ofNat]; omega
  · have : fixture.dec c = .term := if_neg hc
    rw [this] at h; cases h

/-! Small states. -/

/-- A state with `rem` buffered encoder bits, all ones (V-E1, V-E2). -/
def encOnes (rem : Fin 11) : State := { State.reset with e_stage := BitVec.ofNat 10 (mask rem.val), e_rem := rem }

/-- A state in a decode call with `rem` buffered bits, all ones, `n` symbols accepted and `c` pending (V-D25 to V-D27). -/
def decOnes (rem : Fin 9) (residue : Fin 8) (n : Pos) (c : CodePoint) : State :=
  { State.reset with d_stage := BitVec.ofNat 8 (mask rem.val), d_rem := rem, d_residue := residue,
                     d_pend_valid := true, d_pend_cp := c, d_count := n }

/-- A state in a failed decode call (V-D30). -/
def failedCall : State :=
  { State.reset with d_pend_valid := true, d_pend_cp := 4000#21, d_count := 8#32,
                     d_err := some .invalidTerminationCharacter, d_err_pos := 7#32, d_err_cp := 4000#21 }

/-- A state with one event to take. -/
def withPort (e : HostEvent) : State := { State.reset with port := [e] }

/-! Decoding: the words of 95_test_vectors.md V-C1, bit by bit from the encodings of R74. -/

theorem test_decode_encByte : decode 0b00000001000000000000000010100101#32 = .ok (.encByte 0xA5#8) := by decide
theorem test_decode_encEnd : decode 0b00000010000000000000000000000000#32 = .ok .encEnd := by decide
theorem test_decode_decSym : decode 0b00010000000111111111111111111111#32 = .ok (.decSym 0x1FFFFF#21) := by decide
theorem test_decode_decEnd : decode 0b00010001000000000000000000000000#32 = .ok .decEnd := by decide
/-- `w[21]` is reserved in DEC_SYM (V-C1). -/
theorem test_decode_reserved : decode 0x10200000#32 = .error .requiredZeroSet := by decide
theorem test_decode_zero : decode 0x00000000#32 = .error .unusedOpcode := by decide

/-- The host's reading of a table word, and a row longer than a command. -/
theorem test_decodeTableWord :
    decodeTableWord 32 0x100010F4 = some (.decSym 4340#21) ∧ decodeTableWord 32 0x01000100 = none ∧
    decodeTableWord 40 0x02000000 = none := by decide

/-! Well-formedness: no ill-formed command can be written (`Instr.wellFormed_always`); the source statements that are out
of range are refused (R80). -/

theorem test_every_command_wellFormed (i : Instr) : i.wellFormed = true := i.wellFormed_always
theorem test_illformed_encByte : (Asm.Stmt.encByte 256).wellFormed = false := by decide
theorem test_illformed_decSym : (Asm.Stmt.decSym (.num 0x200000)).wellFormed = false := by decide
theorem test_illformed_main : (Asm.Stmt.decSym (.main 2048)).wellFormed = false := by decide
theorem test_illformed_tail : (Asm.Stmt.decSym (.tail 8)).wellFormed = false := by decide
theorem test_illformed_word : (Asm.Stmt.word 0x100000000).wellFormed = false := by decide
theorem test_illformed_encode : (Asm.Stmt.encodeAll [0, 256]).wellFormed = false := by decide
theorem test_illformed_decode : (Asm.Stmt.decodeAll [.main 0, .tail 8]).wellFormed = false := by decide
theorem test_assemble_refuses : Asm.assemble fixture (.encByte 256) = .error .operandRange := by decide

/-- The `encode` line of R81 with a comment, and a table operand: the words of 95_test_vectors.md P1 and V-D6. -/
theorem test_assemble_text :
    Asm.assembleText fixture "encode 0x01, 2, 3 ; P1\ndec.sym T(5)" =
      .ok [0x01000001#32, 0x01000002#32, 0x01000003#32, 0x02000000#32, 0x10000BBD#32] := by decide

/-! One step of each command. -/

/-- V-E1, row `e_rem = 3` (`need = 8`, conflict C1). -/
theorem test_encByte_need8 :
    encByteEffect fixture 0xA5#8 (encOnes 3) = { State.reset with enc_out := [.sym (M 0x7A5#11)] } := by decide
/-- V-E1, row `e_rem = 10` (`need = 1`). -/
theorem test_encByte_need1 :
    encByteEffect fixture 0xA5#8 (encOnes 10) =
      { State.reset with e_stage := 0x25#10, e_rem := 7, enc_out := [.sym (M 0x7FF#11)] } := by decide
/-- V-E2, row `e_rem = 3`. -/
theorem test_encEnd_tail : (encEndEffect fixture (encOnes 3)).enc_out = [.sym (T 7#3), .encDone] := by decide
/-- V-E2, row `e_rem = 4`. -/
theorem test_encEnd_main : (encEndEffect fixture (encOnes 4)).enc_out = [.sym (M 0x00F#11), .encDone] := by decide
/-- V-D25, row `d_rem = 8`: the 19-bit merge (conflict C2). -/
theorem test_decSym_nineteen_bits :
    decSymEffect fixture 0#21 (decOnes 8 0 1#32 (M 0x555#11)) =
      { State.reset with d_stage := 0x05#8, d_rem := 3, d_residue := 3, d_pend_valid := true, d_count := 2#32,
                         dec_out := [.byte 0xFF#8, .byte 0xAA#8] } := by decide
/-- The last step of V-D15: code 1 for the pending 4340, the new symbol discarded. -/
theorem test_decSym_raises :
    decSymEffect fixture (M 0#11) (decOnes 6 6 3#32 4340#21) =
      raiseDecodeError (decOnes 6 6 3#32 4340#21) .invalidCharacter 2#32 4340#21 := by decide
/-- V-D26, row `n = 9`. -/
theorem test_decEnd_data :
    (decEndEffect fixture (decOnes 8 0 9#32 (M 0x055#11))).dec_out =
      [.byte 0xFF#8, .byte 0x55#8, .decDone .ok] := by decide
/-- V-D27, row `d_rem = 6`: `T(3)` is accepted, `T(4)` is not. -/
theorem test_decEnd_tail :
    (decEndEffect fixture (decOnes 6 6 3#32 (T 3#3))).dec_out = [.byte 0xFF#8, .decDone .ok] ∧
    (decEndEffect fixture (decOnes 6 6 3#32 (T 4#3))).dec_out =
      [.decDone (.err .invalidTailCharacter 2#32 (T 4#3))] := by decide

/-- The first step after reset runs the word that is placed (V-C1, first row). -/
theorem test_step_runs_the_word :
    step (State.reset.withFetchWord 32 0x010000A5) =
      .next { State.reset with e_stage := 0xA5#10, e_rem := 8 } := by rfl
/-- An illegal word sets `cmd_fault` and nothing else (V-C1). -/
theorem test_step_illegal :
    step (State.reset.withFetchWord 32 0x01000100) = .next { State.reset with cmd_fault := true } := by rfl

/-- The run P6: a reset in the middle of two calls. -/
def p6 : List HostEvent :=
  [.word 0x01000012#32, .word 0x1000065E#32, .word 0x1000010D#32] ++ .reset ::
    [.word 0x010000FF#32, .word 0x02000000#32, .word 0x10000BBD#32, .word 0x11000000#32]

/-- The streams of P6, the void byte 0xAB among the tokens. -/
theorem test_p6_streams :
    (runEvents fixture p6 State.reset).observation =
      ([.sym (M 0x0FF#11), .encDone], [.byte 0xAB#8, .byte 0x05#8, .decDone .ok], false) := by decide
/-- The results of P6: the calls cut short by the reset have none, and 0xAB is in no result. -/
theorem test_p6_results :
    runEncResults fixture p6 State.reset = [[M 0x0FF#11]] ∧
    runDecResults fixture p6 State.reset = [.bytes [0x05#8]] := by decide

/-! Witnesses: what the hypotheses of the obligations ask for can be had. -/

theorem witness_DecodeOfEncodeIsTheCommand :
    (Instr.encByte 0xFF#8).wellFormed = true ∧ Instr.encEnd.wellFormed = true ∧
    (Instr.decSym 0x1FFFFF#21).wellFormed = true ∧ Instr.decEnd.wellFormed = true := by decide

theorem witness_WordOfADecodedCommand :
    decode 0x010000FF#32 = .ok (.encByte 0xFF#8) ∧ decode 0x02000000#32 = .ok .encEnd ∧
    decode 0x10000000#32 = .ok (.decSym 0#21) ∧ decode 0x11000000#32 = .ok .decEnd := by decide

/-- A word of each row, the operand at the ends of its range; the row's last clause is met by the same words. -/
theorem witness_OperandsAreTheWordsLowBits :
    0x010000FF#32 &&& 0xFFFFFF00#32 = 0x01000000#32 ∧ 0x02000000#32 &&& 0xFFFFFFFF#32 = 0x02000000#32 ∧
    0x101FFFFF#32 &&& 0xFFE00000#32 = 0x10000000#32 ∧ 0x11000000#32 &&& 0xFFFFFFFF#32 = 0x11000000#32 ∧
    decode 0x101FFFFF#32 = .ok (.decSym ((0x101FFFFF#32).extractLsb' 0 21)) := by decide

/-- The words next to ENC_BYTE's largest and DEC_SYM's largest, an unused opcode, a word of a row. -/
theorem witness_IllegalWordSetsOnlyTheFaultFlag :
    (withPort (.word 0x01000100#32)).port = .word 0x01000100#32 :: [] ∧
    (∀ r ∈ opcodeTable, 0x01000100#32 &&& r.mask ≠ r.pattern) ∧
    (∀ r ∈ opcodeTable, 0x10200000#32 &&& r.mask ≠ r.pattern) ∧
    opcodeOf 0x00FFFFFF#32 ∉ usedOpcodes ∧
    (∃ r ∈ opcodeTable, 0x010000FF#32 &&& r.mask = r.pattern) := by decide

theorem witness_StepRunsTheDecodedCommand :
    (withPort (.word 0x11000000#32)).port = .word 0x11000000#32 :: [] ∧ decode 0x11000000#32 = .ok .decEnd := by decide

theorem witness_StepWaitsWithNothingPresented : State.reset.port = [] := rfl

theorem witness_ResetEventWritesEveryRegister : (withPort .reset).port = .reset :: [] := rfl

/-- Each clause: a reset, a legal word, an illegal word. -/
theorem witness_OnlyResetClearsTheFaultFlag :
    (withPort .reset).port = .reset :: [] ∧
    ((withPort (.word 0x02000000#32)).port = .word 0x02000000#32 :: [] ∧ ∃ i, decode 0x02000000#32 = .ok i) ∧
    ((withPort (.word 0x02000001#32)).port = .word 0x02000001#32 :: [] ∧ ¬ ∃ i, decode 0x02000001#32 = .ok i) := by
  refine ⟨rfl, ⟨rfl, .encEnd, by decide⟩, rfl, ?_⟩
  rw [show decode 0x02000001#32 = .error .requiredZeroSet from by decide]
  simp

theorem witness_StreamsAreAppendOnly : (withPort .reset).port = .reset :: [] := rfl

/-- The clauses' boundary, `need = 8` and `need = 9`, and the range's ends. -/
theorem witness_EncByteResult :
    0x010000FF#32 &&& 0xFFFFFF00#32 = 0x01000000#32 ∧
    ((encOnes 3).EncLegal ∧ 11 - (encOnes 3).e_rem.val ≤ 8) ∧ ((encOnes 2).EncLegal ∧ 8 < 11 - (encOnes 2).e_rem.val) ∧
    ((encOnes 10).EncLegal ∧ 11 - (encOnes 10).e_rem.val ≤ 8) ∧
    ((encOnes 0).EncLegal ∧ 8 < 11 - (encOnes 0).e_rem.val) := by decide

theorem witness_EncEndResult :
    ((encOnes 0).EncLegal ∧ (encOnes 0).e_rem.val = 0) ∧
    ((encOnes 1).EncLegal ∧ 0 < (encOnes 1).e_rem.val ∧ (encOnes 1).e_rem.val ≤ 3) ∧
    ((encOnes 3).EncLegal ∧ 0 < (encOnes 3).e_rem.val ∧ (encOnes 3).e_rem.val ≤ 3) ∧
    ((encOnes 4).EncLegal ∧ 4 ≤ (encOnes 4).e_rem.val) ∧ ((encOnes 10).EncLegal ∧ 4 ≤ (encOnes 10).e_rem.val) := by decide

theorem witness_IndexIsBufferedBitsThenByteBits :
    ((encOnes 3).EncLegal ∧ 3 ≤ (encOnes 3).e_rem.val) ∧ ((encOnes 10).EncLegal ∧ 3 ≤ (encOnes 10).e_rem.val) ∧
    ((encOnes 1).EncLegal ∧ 0 < (encOnes 1).e_rem.val) := by decide

theorem witness_EncoderCommandsFrame :
    isEncCommand (.encByte 0#8) = true ∧ isEncCommand .encEnd = true := by decide

theorem witness_EncoderEmissionCounts : 3 ≤ (encOnes 3).e_rem.val ∧ (encOnes 2).e_rem.val ≤ 2 := by decide

/-- One byte and ENC_END from reset leave a Sym token (V-S1). -/
theorem witness_EncoderEmitsOnlyTheAlphabets :
    EncToken.sym (M 0x0FF#11) ∈
      (runEvents fixture [.word 0x010000FF#32, .word 0x02000000#32] State.reset).enc_out := by decide

/-- Each clause, at the code points next to `MAXCP` and at the tail indices next to the bound. -/
theorem witness_ProcessRaisesTheFirstFailedCheck :
    fixture.maxCp < 4340#21 ∧
    (T 0#3 ≤ fixture.maxCp ∧ fixture.dec (T 0#3) = .term) ∧
    (4339#21 ≤ fixture.maxCp ∧ fixture.dec 4339#21 = .term ∧ ∀ j, fixture.tail j ≠ 4339#21) ∧
    (T 4#3 ≤ fixture.maxCp ∧ fixture.dec (T 4#3) = .term ∧ fixture.tail 4#3 = T 4#3 ∧
      (∀ j' < 4#3, fixture.tail j' ≠ T 4#3) ∧ 2 ^ (8 - (decOnes 6 6 3#32 0#21).d_rem.val) ≤ (4#3).toNat) ∧
    (T 3#3 ≤ fixture.maxCp ∧ fixture.dec (T 3#3) = .term ∧ fixture.tail 3#3 = T 3#3 ∧
      (∀ j' < 3#3, fixture.tail j' ≠ T 3#3) ∧ (3#3).toNat < 2 ^ (8 - (decOnes 6 6 3#32 0#21).d_rem.val)) ∧
    (M 0x7FF#11 ≤ fixture.maxCp ∧ fixture.dec (M 0x7FF#11) = .data 0x7FF#11) := by decide

theorem witness_InvalidCharacterMeansAboveMaxcp :
    fixture.maxCp = 4339#21 ∧ checkSymbol fixture 4340#21 false 3 0 = .error .invalidCharacter := by decide

/-- DEC_SYM latches code 1 and code 2; DEC_END reports codes 1, 3 and 4. -/
theorem witness_ErrorCodesAndWhoRaisesThem :
    ((decOnes 6 6 3#32 4340#21).d_err = none ∧
      (effectWith fixture (.decSym 0#21) (decOnes 6 6 3#32 4340#21)).d_err = some .invalidCharacter) ∧
    (effectWith fixture (.decSym 0#21) (decOnes 6 6 3#32 (T 0#3))).d_err = some .unexpectedAfterTerminator ∧
    (effectWith fixture .decEnd (decOnes 6 6 3#32 4340#21)).dec_out =
      (decOnes 6 6 3#32 4340#21).dec_out ++ [] ++ [.decDone (.err .invalidCharacter 2#32 4340#21)] ∧
    (effectWith fixture .decEnd (decOnes 6 6 3#32 4339#21)).dec_out =
      (decOnes 6 6 3#32 4339#21).dec_out ++ [] ++ [.decDone (.err .invalidTerminationCharacter 2#32 4339#21)] ∧
    (effectWith fixture .decEnd (decOnes 6 6 3#32 (T 4#3))).dec_out =
      (decOnes 6 6 3#32 (T 4#3)).dec_out ++ [] ++ [.decDone (.err .invalidTailCharacter 2#32 (T 4#3))] := by decide

/-- Each clause of a DEC_SYM, `d_rem` at 5 and 6, where one and two bytes meet, and at the ends. -/
theorem witness_DecSymResult :
    0x101FFFFF#32 &&& 0xFFE00000#32 = 0x10000000#32 ∧
    (failedCall.DecLegal ∧ failedCall.d_err ≠ none) ∧
    (State.reset.DecLegal ∧ State.reset.d_err = none ∧ State.reset.d_pend_valid = false) ∧
    ((decOnes 5 5 8#32 4340#21).DecLegal ∧ (decOnes 5 5 8#32 4340#21).d_err = none ∧
      (decOnes 5 5 8#32 4340#21).d_pend_valid = true ∧ fixture.maxCp < 4340#21) ∧
    ((decOnes 5 5 8#32 4339#21).DecLegal ∧ 4339#21 ≤ fixture.maxCp ∧ fixture.dec 4339#21 = .term) ∧
    (M 0#11 ≤ fixture.maxCp ∧ fixture.dec (M 0#11) = .data 0#11) ∧
    ((decOnes 5 5 8#32 (M 0#11)).DecLegal ∧ (decOnes 5 5 8#32 (M 0#11)).d_rem.val ≤ 5) ∧
    ((decOnes 6 6 3#32 (M 0#11)).DecLegal ∧ 6 ≤ (decOnes 6 6 3#32 (M 0#11)).d_rem.val) ∧
    ((decOnes 0 0 1#32 (M 0#11)).DecLegal ∧ (decOnes 0 0 1#32 (M 0#11)).d_rem.val ≤ 5) ∧
    ((decOnes 8 0 9#32 (M 0#11)).DecLegal ∧ 6 ≤ (decOnes 8 0 9#32 (M 0#11)).d_rem.val) := by decide

/-- Each clause of a DEC_END, the tail index next to the bound. -/
theorem witness_DecEndResult :
    (failedCall.DecLegal ∧ failedCall.RemFollowsResidue ∧
      failedCall.d_err = some .invalidTerminationCharacter) ∧
    (State.reset.DecLegal ∧ State.reset.RemFollowsResidue ∧ State.reset.d_err = none ∧
      State.reset.d_pend_valid = false) ∧
    ((decOnes 6 6 3#32 4340#21).DecLegal ∧ (decOnes 6 6 3#32 4340#21).RemFollowsResidue ∧
      (decOnes 6 6 3#32 4340#21).d_err = none ∧ (decOnes 6 6 3#32 4340#21).d_pend_valid = true ∧
      fixture.maxCp < 4340#21) ∧
    ((decOnes 8 0 9#32 (M 0x7FF#11)).DecLegal ∧ (decOnes 8 0 9#32 (M 0x7FF#11)).RemFollowsResidue ∧
      M 0x7FF#11 ≤ fixture.maxCp ∧ fixture.dec (M 0x7FF#11) = .data 0x7FF#11) ∧
    (4339#21 ≤ fixture.maxCp ∧ fixture.dec 4339#21 = .term ∧ ∀ j, fixture.tail j ≠ 4339#21) ∧
    (T 4#3 ≤ fixture.maxCp ∧ fixture.dec (T 4#3) = .term ∧ (∀ j' < 4#3, fixture.tail j' ≠ T 4#3) ∧
      2 ^ (8 - (decOnes 6 6 3#32 (T 4#3)).d_rem.val) ≤ (4#3).toNat) ∧
    (∀ j' < 3#3, fixture.tail j' ≠ T 3#3) ∧
    (3#3).toNat < 2 ^ (8 - (decOnes 6 6 3#32 (T 3#3)).d_rem.val) := by decide

theorem witness_FailedCallIsReportedOnce : failedCall.d_err = some .invalidTerminationCharacter := rfl

theorem witness_FirstSymbolIsOnlyHeld :
    State.reset.d_err = none ∧ State.reset.d_pend_valid = false := ⟨rfl, rfl⟩

theorem witness_EmptyDecodeCallSucceeds :
    State.reset.d_err = none ∧ State.reset.d_pend_valid = false := ⟨rfl, rfl⟩

theorem witness_DecoderCommandsFrame :
    isEncCommand (.decSym 0#21) = false ∧ isEncCommand .decEnd = false := by decide

/-- A last data symbol and a last tail symbol. -/
theorem witness_FinalFlushIsByteAligned :
    ((decOnes 8 0 9#32 (M 0x055#11)).RemFollowsResidue ∧
      checkSymbol fixture (M 0x055#11) true (nextResidue (decOnes 8 0 9#32 (M 0x055#11)).d_residue)
        (decOnes 8 0 9#32 (M 0x055#11)).d_rem = .ok (8, 0x55)) ∧
    ((decOnes 6 6 3#32 (T 3#3)).RemFollowsResidue ∧
      checkSymbol fixture (T 3#3) true (nextResidue (decOnes 6 6 3#32 (T 3#3)).d_residue)
        (decOnes 6 6 3#32 (T 3#3)).d_rem = .ok (2, 3)) := by decide

theorem witness_InvalidTailCharacterNeedsSixBufferedBits :
    checkSymbol fixture (T 4#3) true 1 6 = .error .invalidTailCharacter := by decide

/-- A legal state in the middle of two calls (the decoder one of V-D4 after its second DEC_SYM). -/
def midCalls : State :=
  { State.reset with e_stage := 0x3FF#10, e_rem := 10, d_stage := 0x0#8, d_rem := 3, d_residue := 3,
                     d_pend_valid := true, d_pend_cp := M 0x080#11, d_count := 2#32, cmd_fault := true,
                     port := [.word 0x10000BBB#32] }

theorem witness_TokensPerCommand : midCalls.Inv := by decide

theorem witness_EveryStepKeepsTheStateLegal : midCalls.Inv ∧ State.reset.Inv := by decide

theorem witness_EnginesShareNoRegister :
    isEncCommand (.encByte 0#8) = true ∧ State.reset.SameEncoder failedCall ∧ State.reset ≠ failedCall ∧
    isEncCommand .decEnd = false ∧ State.reset.SameDecoder (encOnes 10) ∧ State.reset ≠ encOnes 10 := by decide

theorem witness_StepsTakeTheEventsInOrder :
    ({ State.reset with port := [.word 0x010000FF#32, .reset, .word 0#32] } : State).port =
      [.word 0x010000FF#32, .reset] ++ [.word 0#32] := rfl

/-- A run with an illegal word and one without. -/
theorem witness_UnfaultedRunsHoldOnlyCommands :
    HostEvent.reset ∉ [HostEvent.word 0x010000FF#32, HostEvent.word 0#32] ∧
    ¬ (runEvents fixture [.word 0x010000FF#32, .word 0#32] State.reset).Unfaulted ∧
    HostEvent.reset ∉ [HostEvent.word 0x010000FF#32] ∧
    (runEvents fixture [.word 0x010000FF#32] State.reset).Unfaulted := by decide

/-- Other tables that agree on what the engine reads: the decoder's for an encoder command, the entries above `MAXCP` for a
decoder command. -/
theorem witness_TablesReadByEachEngine :
    (isEncCommand .encEnd = true ∧ ({ fixture with maxCp := 0#21 } : Tables).enc = fixture.enc ∧
      ({ fixture with maxCp := 0#21 } : Tables).tail = fixture.tail) ∧
    (isEncCommand .decEnd = false ∧
      ∀ c, c ≤ fixture.maxCp →
        ({ fixture with dec := fun c => if fixture.maxCp < c then .data 0#11 else fixture.dec c } : Tables).dec c =
          fixture.dec c) := by
  refine ⟨⟨rfl, rfl, rfl⟩, rfl, fun c hc => if_neg ?_⟩
  rw [BitVec.lt_def]
  rw [BitVec.le_def] at hc
  omega

/-- Engines in their initial states while the rest of the state is not. -/
theorem witness_CallsAreIndependent : failedCall.EncAtInit ∧ (encOnes 10).DecAtInit := by decide

theorem witness_ResultsAreReadOffTheStreams : failedCall.EncAtInit ∧ (encOnes 10).DecAtInit := by decide

/-- The last bit of the stream, and that there is none after it. -/
theorem witness_BitStreamOrder : 15 / 8 < [0x01#8, 0x80#8].length ∧ ¬ 16 / 8 < [0x01#8, 0x80#8].length := by decide

/-- `r` at 0, 1, 3, 4 and 10 (95_test_vectors.md V-E4). -/
theorem witness_EncodedLengthLaw :
    8 * (List.replicate 11 0xFF#8).length % 11 = 0 ∧ 8 * (List.replicate 7 0xFF#8).length % 11 = 1 ∧
    8 * (List.replicate 10 0xFF#8).length % 11 = 3 ∧ 8 * (List.replicate 6 0xFF#8).length % 11 = 4 ∧
    8 * (List.replicate 4 0xFF#8).length % 11 = 10 := by decide

/-- A string that decodes, and one of V-D18 that does not. -/
theorem witness_DecodeCallIsTheWholeBufferDecoder :
    (Reference.decodeWhole fixture [M 0x0FF#11]).2 = .ok ∧
    (Reference.decodeWhole fixture [0x1FFFFF#21]).2 = .fail 1 0 0x1FFFFF#21 := by decide

theorem witness_DecodingAnEncodedBufferGivesItBack : fixture.WF := fixture_WF

/-- A last data symbol (V-D2) and a last tail symbol, alone (V-D6) and after a data symbol (V-D10). -/
theorem witness_DecodedLengthLaw :
    (decodeCall fixture ([] ++ [M 0x0FF#11]) = [0xFF#8].map DecToken.byte ++ [.decDone .ok] ∧
      fixture.dec (M 0x0FF#11) = .data 0x0FF#11) ∧
    (decodeCall fixture ([] ++ [T 5#3]) = [0x05#8].map DecToken.byte ++ [.decDone .ok] ∧ fixture.dec (T 5#3) = .term) ∧
    decodeCall fixture ([M 0x7FF#11] ++ [T 7#3]) = [0xFF#8, 0xE7#8].map DecToken.byte ++ [.decDone .ok] := by decide

theorem witness_AcceptedCodePointsAreOfTheAlphabets :
    fixture.WF ∧ fixture.T4 ∧ checkSymbol fixture (M 0x7FF#11) true 3 0 = .ok (8, 0x7FF) ∧
    checkSymbol fixture (T 7#3) true 3 0 = .ok (8, 7) := ⟨fixture_WF, fixture_T4, by decide, by decide⟩

theorem witness_TailSymbolBeforeTheEndFailsTheCall : fixture.WF := fixture_WF

theorem witness_DecodingIsNotInjective : fixture.WF := fixture_WF

/-- The ends of each operand's range. -/
theorem witness_OperandsAssembleInRangeOnly :
    255 ≤ 255 ∧ 255 < 256 ∧ 0x1FFFFF ≤ 0x1FFFFF ∧ 0x1FFFFF < 0x200000 ∧ 2047 ≤ 2047 ∧ 2047 < 2048 ∧ 7 ≤ 7 ∧
    7 < 8 := by decide

end Sys2Proof.Tests
end

section
/-! The statements of spec/00_scope.md: the machine named `exec` and `step` is the parametric one at its own tables. -/

namespace Sys2Proof.Machine

/-- `exec` is the instance of the parametric machine at this machine's tables. -/
theorem exec_eq_execWith_tables (i : Instr) (s : State) : exec i s = execWith Config.tables i s :=
  exec_eq_effect i s

/-- `step` is the instance of the parametric machine at this machine's tables: the two steps differ only in the meaning
they give to a legal word. -/
theorem step_eq_stepWith_tables (s : State) : step s = stepWith Config.tables s := by
  have hexec : exec = execWith Config.tables := funext fun i => funext (exec_eq_execWith_tables i)
  rw [step, stepWith, hexec]

/-- Settles O8: each command's meaning is its effect at `Config.tables`, and both steps are `stepUsing` of that. -/
theorem execIsTheMachineOverItsTables : Obligations.ExecIsTheMachineOverItsTables :=
  ⟨exec_eq_execWith_tables, step_eq_stepWith_tables⟩

end Sys2Proof.Machine
end

section
/-! The statements of spec/10_state.md. A command is local to its engine: it reads that engine's registers only, and it
writes them and appends to that engine's stream. Locality is stated of one shared operation at a time and composed. -/

namespace Sys2Proof.Machine

/-! Registers taken from another state, and tokens appended. -/

/-- `s` with the encoder's registers (spec/10_state.md R21, R22) those of `u`. -/
def State.withEncoderOf (s u : State) : State := { s with e_stage := u.e_stage, e_rem := u.e_rem }

/-- `s` with the decoder's registers (R23 to R28) those of `u`. -/
def State.withDecoderOf (s u : State) : State :=
  { s with d_stage := u.d_stage, d_rem := u.d_rem, d_residue := u.d_residue, d_pend_valid := u.d_pend_valid,
           d_pend_cp := u.d_pend_cp, d_count := u.d_count, d_err := u.d_err, d_err_pos := u.d_err_pos,
           d_err_cp := u.d_err_cp }

/-- `emit_E` of each token in order. -/
def State.appendE (s : State) (es : List EncToken) : State := { s with enc_out := s.enc_out ++ es }

/-- `emit_D` of each token in order. -/
def State.appendD (s : State) (ds : List DecToken) : State := { s with dec_out := s.dec_out ++ ds }

/-- `s` with other contents in the two streams (R30). -/
def State.withStreams (s : State) (xs : List EncToken) (ys : List DecToken) : State :=
  { s with enc_out := xs, dec_out := ys }

@[simp] theorem State.appendE_nil (s : State) : s.appendE [] = s := by simp [State.appendE]

@[simp] theorem State.appendD_nil (s : State) : s.appendD [] = s := by simp [State.appendD]

@[simp] theorem State.appendD_appendD (s : State) (ds ds' : List DecToken) :
    (s.appendD ds).appendD ds' = s.appendD (ds ++ ds') := by simp [State.appendD]

/-- A state that agrees with `u` on the encoder has the encoder's registers of `u`. -/
theorem State.withEncoderOf_of_same {s u : State} (h : u.SameEncoder s) : s.withEncoderOf u = s := by
  obtain ⟨hstage, hrem, -⟩ := h
  simp only [State.withEncoderOf, ← hstage, ← hrem]

/-- A state that agrees with `u` on the decoder has the decoder's registers of `u`. -/
theorem State.withDecoderOf_of_same {s u : State} (h : u.SameDecoder s) : s.withDecoderOf u = s := by
  obtain ⟨hstage, hrem, hresidue, hvalid, hcp, hcount, herr, hpos, hecp, -⟩ := h
  simp only [State.withDecoderOf, ← hstage, ← hrem, ← hresidue, ← hvalid, ← hcp, ← hcount, ← herr, ← hpos, ← hecp]

/-! Locality. -/

/-- From every state whose encoder registers are those of `u`, `f` writes the same encoder registers and appends the same
tokens to `enc_out`, and does nothing else. -/
def EncLocalAt (f : State → State) (u : State) : Prop :=
  ∃ (v : State) (es : List EncToken), ∀ s : State, f (s.withEncoderOf u) = (s.withEncoderOf v).appendE es

/-- From every state whose decoder registers are those of `u`, `f` writes the same decoder registers and appends the same
tokens to `dec_out`, and does nothing else. -/
def DecLocalAt (f : State → State) (u : State) : Prop :=
  ∃ (v : State) (ds : List DecToken), ∀ s : State, f (s.withDecoderOf u) = (s.withDecoderOf v).appendD ds

/-- One local decoder operation after another: the second does not read what the first appended. -/
theorem DecLocalAt.comp {f g : State → State} {u : State} (hf : DecLocalAt f u) (hg : ∀ v, DecLocalAt g v) :
    DecLocalAt (fun s => g (f s)) u := by
  obtain ⟨v, ds, hv⟩ := hf
  obtain ⟨w, ds', hw⟩ := hg v
  refine ⟨w, ds ++ ds', fun s => ?_⟩
  calc g (f (s.withDecoderOf u))
      = g ((s.appendD ds).withDecoderOf v) := congrArg g (hv s)
    _ = ((s.appendD ds).withDecoderOf w).appendD ds' := hw _
    _ = (s.withDecoderOf w).appendD (ds ++ ds') := (s.withDecoderOf w).appendD_appendD ds ds'

/-- An operation that is `g` on the states with the decoder registers of `u` is local there when `g` is. -/
theorem DecLocalAt.of_eq {f g : State → State} {u : State} (hg : DecLocalAt g u)
    (h : ∀ s : State, f (s.withDecoderOf u) = g (s.withDecoderOf u)) : DecLocalAt f u := by
  obtain ⟨v, ds, hv⟩ := hg
  exact ⟨v, ds, fun s => (h s).trans (hv s)⟩

/-! The decoder. -/

theorem decLocalAt_id (u : State) : DecLocalAt (fun s => s) u :=
  ⟨u, [], fun _ => (State.appendD_nil _).symm⟩

theorem decLocalAt_holdPending (c : CodePoint) (u : State) : DecLocalAt (·.holdPending c) u :=
  ⟨u.holdPending c, [], fun _ => (State.appendD_nil _).symm⟩

theorem decLocalAt_endDecodeCall (u : State) : DecLocalAt endDecodeCall u :=
  ⟨u.decInit, [.decDone (callStatus u)], fun _ => rfl⟩

/-- PROCESS is local: the checks and the loop read `d_stage`, `d_rem` and `d_residue` only. -/
theorem decLocalAt_process (T : Tables) (c : CodePoint) (i : Pos) (last : Bool) (u : State) :
    DecLocalAt (process T c i last) u := by
  cases hc : checkSymbol T c last (nextResidue u.d_residue) u.d_rem with
  | error code =>
    exact ⟨raiseDecodeError u code i c, [], fun s =>
      (process_error (s := s.withDecoderOf u) i hc).trans (State.appendD_nil _).symm⟩
  | ok kv =>
    obtain ⟨k, v⟩ := kv
    cases last with
    | false =>
      refine ⟨process T c i false u, (drain (merge u.d_stage k v) (u.d_rem.val + k)).1.map DecToken.byte, fun s => ?_⟩
      rw [process_ok_notLast (s := s.withDecoderOf u) i hc, process_ok_notLast i hc]; rfl
    | true =>
      let bits := drain (merge u.d_stage k v) (u.d_rem.val + k)
      exact ⟨u, (bits.1 ++ finalFlush bits.2.1 bits.2.2).map DecToken.byte, fun s =>
        process_ok_last (s := s.withDecoderOf u) i hc⟩

/-- DEC_SYM is local to the decoder (spec/10_state.md R31). -/
theorem decLocalAt_decSymEffect (T : Tables) (c : CodePoint) (u : State) : DecLocalAt (decSymEffect T c) u := by
  have hprocess := decLocalAt_process T u.d_pend_cp (pendPos u) false u
  cases he : u.d_err with
  | some code => exact (decLocalAt_id u).of_eq fun s => decSymEffect_failed (s := s.withDecoderOf u) T c he
  | none =>
    cases hp : u.d_pend_valid with
    | false =>
      exact (decLocalAt_holdPending c u).of_eq fun s => decSymEffect_first (s := s.withDecoderOf u) T c he hp
    | true =>
      cases hc : checkSymbol T u.d_pend_cp false (nextResidue u.d_residue) u.d_rem with
      | error code =>
        exact hprocess.of_eq fun s =>
          (decSymEffect_raise (s := s.withDecoderOf u) T c he hp hc).trans
            (process_error (s := s.withDecoderOf u) (pendPos u) hc).symm
      | ok kv =>
        exact (hprocess.comp (decLocalAt_holdPending c)).of_eq fun s =>
          decSymEffect_pass (s := s.withDecoderOf u) T c he hp hc

/-- DEC_END is local to the decoder (R31). -/
theorem decLocalAt_decEndEffect (T : Tables) (u : State) : DecLocalAt (decEndEffect T) u := by
  cases he : u.d_err with
  | some code =>
    exact (decLocalAt_endDecodeCall u).of_eq fun s => decEndEffect_failed (s := s.withDecoderOf u) T he
  | none =>
    cases hp : u.d_pend_valid with
    | false =>
      exact (decLocalAt_endDecodeCall u).of_eq fun s => decEndEffect_empty (s := s.withDecoderOf u) T he hp
    | true =>
      exact ((decLocalAt_process T u.d_pend_cp (pendPos u) true u).comp decLocalAt_endDecodeCall).of_eq fun s =>
        decEndEffect_pend (s := s.withDecoderOf u) T he hp

/-- A decoder command is local to the decoder (R31). -/
theorem decLocalAt_effectWith (T : Tables) {i : Instr} (hi : isEncCommand i = false) (u : State) :
    DecLocalAt (effectWith T i) u := by
  cases i with
  | encByte b => cases hi
  | encEnd => cases hi
  | decSym c => exact decLocalAt_decSymEffect T c u
  | decEnd => exact decLocalAt_decEndEffect T u

/-! The encoder. -/

/-- ENC_BYTE is local to the encoder (R31). -/
theorem encLocalAt_encByteEffect (T : Tables) (b : Byte) (u : State) : EncLocalAt (encByteEffect T b) u := by
  rcases Nat.lt_or_ge u.e_rem.val 3 with h | h
  · have hfold : u.e_rem.val ≤ 2 := Nat.le_of_lt_succ h
    refine ⟨encByteEffect T b u, [], fun s => ?_⟩
    rw [State.appendE_nil, encByteEffect_fold (s := s.withEncoderOf u) T b hfold, encByteEffect_fold T b hfold]; rfl
  · refine ⟨encByteEffect T b u,
      [.sym (T.enc (encAddress (encIndex u.e_stage.toNat (encNeed u.e_rem.val) b.toNat)))], fun s => ?_⟩
    rw [encByteEffect_emit (s := s.withEncoderOf u) T b h, encByteEffect_emit T b h]; rfl

/-- ENC_END is local to the encoder (R31). -/
theorem encLocalAt_encEndEffect (T : Tables) (u : State) : EncLocalAt (encEndEffect T) u := by
  cases hf : finalSymbol T u.e_stage u.e_rem with
  | none => exact ⟨u.encInit, [.encDone], fun s => by simp only [encEndEffect, State.withEncoderOf, hf]; rfl⟩
  | some cp =>
    refine ⟨u.encInit, [.sym cp] ++ [.encDone], fun s => ?_⟩
    simp only [encEndEffect, State.withEncoderOf, State.appendE, ← List.append_assoc, hf]; rfl

/-- An encoder command is local to the encoder (R31). -/
theorem encLocalAt_effectWith (T : Tables) {i : Instr} (hi : isEncCommand i = true) (u : State) :
    EncLocalAt (effectWith T i) u := by
  cases i with
  | encByte b => exact encLocalAt_encByteEffect T b u
  | encEnd => exact encLocalAt_encEndEffect T u
  | decSym c => cases hi
  | decEnd => cases hi

/-! What locality gives of one command. -/

/-- What an encoder command writes from `s`, it writes from every state that agrees with `s` on the encoder. -/
theorem encCommand_writes (T : Tables) {i : Instr} (hi : isEncCommand i = true) (s : State) :
    ∃ v es, effectWith T i s = (s.withEncoderOf v).appendE es ∧
      ∀ s' : State, s.SameEncoder s' → effectWith T i s' = (s'.withEncoderOf v).appendE es := by
  obtain ⟨v, es, h⟩ := encLocalAt_effectWith T hi s
  exact ⟨v, es, h s, fun s' hsame => by rw [← h s', State.withEncoderOf_of_same hsame]⟩

/-- What a decoder command writes from `s`, it writes from every state that agrees with `s` on the decoder. -/
theorem decCommand_writes (T : Tables) {i : Instr} (hi : isEncCommand i = false) (s : State) :
    ∃ v ds, effectWith T i s = (s.withDecoderOf v).appendD ds ∧
      ∀ s' : State, s.SameDecoder s' → effectWith T i s' = (s'.withDecoderOf v).appendD ds := by
  obtain ⟨v, ds, h⟩ := decLocalAt_effectWith T hi s
  exact ⟨v, ds, h s, fun s' hsame => by rw [← h s', State.withDecoderOf_of_same hsame]⟩

/-- An encoder command writes nothing of the decoder (R31). -/
theorem encCommand_keeps_decoder (T : Tables) {i : Instr} (hi : isEncCommand i = true) (s : State) :
    s.SameDecoder (effectWith T i s) := by
  obtain ⟨v, es, hs, -⟩ := encCommand_writes T hi s
  rw [hs]
  exact ⟨rfl, rfl, rfl, rfl, rfl, rfl, rfl, rfl, rfl, rfl⟩

/-- A decoder command writes nothing of the encoder (R31). -/
theorem decCommand_keeps_encoder (T : Tables) {i : Instr} (hi : isEncCommand i = false) (s : State) :
    s.SameEncoder (effectWith T i s) := by
  obtain ⟨v, ds, hs, -⟩ := decCommand_writes T hi s
  rw [hs]
  exact ⟨rfl, rfl, rfl⟩

/-- An encoder command leads from states that agree on the encoder to states that agree on it. -/
theorem encCommand_sameEncoder (T : Tables) {i : Instr} (hi : isEncCommand i = true) {s s' : State}
    (h : s.SameEncoder s') : (effectWith T i s).SameEncoder (effectWith T i s') := by
  obtain ⟨v, es, hs, hs'⟩ := encCommand_writes T hi s
  rw [hs, hs' s' h]
  obtain ⟨-, -, hout⟩ := h
  exact ⟨rfl, rfl, congrArg (· ++ es) hout⟩

/-- A decoder command leads from states that agree on the decoder to states that agree on it. -/
theorem decCommand_sameDecoder (T : Tables) {i : Instr} (hi : isEncCommand i = false) {s s' : State}
    (h : s.SameDecoder s') : (effectWith T i s).SameDecoder (effectWith T i s') := by
  obtain ⟨v, ds, hs, hs'⟩ := decCommand_writes T hi s
  rw [hs, hs' s' h]
  obtain ⟨-, -, -, -, -, -, -, -, -, hout⟩ := h
  exact ⟨rfl, rfl, rfl, rfl, rfl, rfl, rfl, rfl, rfl, congrArg (· ++ ds) hout⟩

/-- Settles O33: each command is local to its engine. -/
theorem enginesShareNoRegister : Obligations.EnginesShareNoRegister := fun i s s' =>
  ⟨effectWith Config.tables i s, effectWith Config.tables i s', exec_eq_effect i s, exec_eq_effect i s',
    fun hi => ⟨encCommand_keeps_decoder Config.tables hi s, encCommand_sameEncoder Config.tables hi⟩,
    fun hi => ⟨decCommand_keeps_encoder Config.tables hi s, decCommand_sameDecoder Config.tables hi⟩⟩

/-- No command writes `cmd_fault` (R29). -/
@[simp] theorem effectWith_cmd_fault (T : Tables) (i : Instr) (s : State) :
    (effectWith T i s).cmd_fault = s.cmd_fault := by
  cases hi : isEncCommand i with
  | true =>
    obtain ⟨v, es, hs, -⟩ := encCommand_writes T hi s
    rw [hs]; rfl
  | false =>
    obtain ⟨v, ds, hs, -⟩ := decCommand_writes T hi s
    rw [hs]; rfl

/-- A command appends tokens that do not depend on what the streams hold, and neither do the registers it writes (R30). -/
theorem effectWith_withStreams (T : Tables) (i : Instr) (s : State) :
    ∃ (t : State) (es : List EncToken) (ds : List DecToken), ∀ xs ys,
      effectWith T i (s.withStreams xs ys) = t.withStreams (xs ++ es) (ys ++ ds) := by
  cases hi : isEncCommand i with
  | true =>
    obtain ⟨v, es, h⟩ := encLocalAt_effectWith T hi s
    refine ⟨s.withEncoderOf v, es, [], fun xs ys => ?_⟩
    rw [List.append_nil]
    exact h (s.withStreams xs ys)
  | false =>
    obtain ⟨v, ds, h⟩ := decLocalAt_effectWith T hi s
    refine ⟨s.withDecoderOf v, [], ds, fun xs ys => ?_⟩
    rw [List.append_nil]
    exact h (s.withStreams xs ys)

/-! One host event, and the step that takes it. -/

/-- A reset event resets. -/
@[simp] theorem eventEffect_reset (T : Tables) (s : State) : eventEffect T .reset s = applyReset s := rfl

/-- A legal word runs its command. -/
theorem eventEffect_of_legal (T : Tables) {w : Word} {i : Instr} (s : State) (hd : decode w = .ok i) :
    eventEffect T (.word w) s = effectWith T i s := by simp only [eventEffect, hd]

/-- An illegal word sets `cmd_fault`. -/
theorem eventEffect_of_illegal (T : Tables) {w : Word} {e : IllegalWord} (s : State) (hd : decode w = .error e) :
    eventEffect T (.word w) s = s.setCmdFault := by simp only [eventEffect, hd]

/-- A step takes the next event from the port and has its effect (spec/20_memory.md R64). -/
theorem step_of_cons {s : State} {e : HostEvent} {rest : List HostEvent} (h : s.port = e :: rest) :
    step s = .next (eventEffect Config.tables e { s with port := rest }) := by
  cases e with
  | reset => exact stepUsing_of_reset h
  | word w =>
    cases hd : decode w with
    | ok i => rw [eventEffect_of_legal _ _ hd, ← exec_eq_effect]; exact stepUsing_of_legal h hd
    | error e => rw [eventEffect_of_illegal _ _ hd]; exact stepUsing_of_illegal h hd

/-- An event appends tokens that do not depend on what the streams hold, and neither do the registers it writes; a reset
appends none (R30). -/
theorem eventEffect_withStreams (T : Tables) (e : HostEvent) (s : State) :
    ∃ (t : State) (es : List EncToken) (ds : List DecToken), (e = .reset → es = [] ∧ ds = []) ∧ ∀ xs ys,
      eventEffect T e (s.withStreams xs ys) = t.withStreams (xs ++ es) (ys ++ ds) := by
  cases e with
  | reset =>
    refine ⟨applyReset s, [], [], fun _ => ⟨rfl, rfl⟩, fun xs ys => ?_⟩
    rw [List.append_nil, List.append_nil]; rfl
  | word w =>
    cases hd : decode w with
    | ok i =>
      obtain ⟨t, es, ds, h⟩ := effectWith_withStreams T i s
      exact ⟨t, es, ds, nofun, fun xs ys => (eventEffect_of_legal T _ hd).trans (h xs ys)⟩
    | error e =>
      refine ⟨s.setCmdFault, [], [], nofun, fun xs ys => ?_⟩
      rw [eventEffect_of_illegal T _ hd, List.append_nil, List.append_nil]; rfl

/-- A step on other stream contents appends the same tokens and writes the same registers; a reset appends none (R30). -/
theorem step_withStreams (s : State) :
    ∃ (t : State) (es : List EncToken) (ds : List DecToken), (∀ rest, s.port = .reset :: rest → es = [] ∧ ds = []) ∧
      ∀ xs ys, step (s.withStreams xs ys) = .next (t.withStreams (xs ++ es) (ys ++ ds)) := by
  cases hp : s.port with
  | nil =>
    refine ⟨s, [], [], nofun, fun xs ys => ?_⟩
    rw [List.append_nil, List.append_nil]
    exact stepUsing_of_nil hp
  | cons e rest =>
    obtain ⟨t, es, ds, hreset, h⟩ := eventEffect_withStreams Config.tables e { s with port := rest }
    refine ⟨t, es, ds, fun rest' he => hreset (List.cons.inj he).1, fun xs ys => ?_⟩
    exact (step_of_cons (s := s.withStreams xs ys) hp).trans (congrArg _ (h xs ys))

/-- Settles O13: the clauses are `step_withStreams` at the streams as they are and at any others. -/
theorem streamsAreAppendOnly : Obligations.StreamsAreAppendOnly := fun s => by
  obtain ⟨t, es, ds, hreset, h⟩ := step_withStreams s
  exact ⟨t.withStreams (s.enc_out ++ es) (s.dec_out ++ ds), es, ds, h s.enc_out s.dec_out, rfl, rfl, h, hreset⟩

/-- Settles O12: the three effects of an event on `cmd_fault`. -/
theorem onlyResetClearsTheFaultFlag : Obligations.OnlyResetClearsTheFaultFlag := fun s rest => by
  refine ⟨fun hp => ⟨_, step_of_cons hp, applyReset_cmd_fault _⟩, fun w hp => ⟨_, step_of_cons hp, ?_, ?_⟩⟩
  · rintro ⟨i, hd⟩
    rw [eventEffect_of_legal _ _ hd, effectWith_cmd_fault]
  · intro hnone
    cases hd : decode w with
    | ok i => exact absurd ⟨i, hd⟩ hnone
    | error e => rw [eventEffect_of_illegal _ _ hd, State.setCmdFault_cmd_fault]

/-! What the host meets in a run. -/

/-- An event only appends to the encoder's stream. -/
theorem eventEffect_enc_out_append (T : Tables) (e : HostEvent) (s : State) :
    ∃ es, (eventEffect T e s).enc_out = s.enc_out ++ es := by
  obtain ⟨t, es, ds, -, h⟩ := eventEffect_withStreams T e s
  exact ⟨es, congrArg State.enc_out (h s.enc_out s.dec_out)⟩

/-- An event only appends to the decoder's stream. -/
theorem eventEffect_dec_out_append (T : Tables) (e : HostEvent) (s : State) :
    ∃ ds, (eventEffect T e s).dec_out = s.dec_out ++ ds := by
  obtain ⟨t, es, ds, -, h⟩ := eventEffect_withStreams T e s
  exact ⟨ds, congrArg State.dec_out (h s.enc_out s.dec_out)⟩

@[simp] theorem seenTokens_append {α : Type} (ts ts' : List (Seen α)) :
    seenTokens (ts ++ ts') = seenTokens ts ++ seenTokens ts' := List.filterMap_append

@[simp] theorem seenTokens_map_token {α : Type} (ts : List α) : seenTokens (ts.map Seen.token) = ts := by
  simp [seenTokens, List.filterMap_map]

/-- A stream that words only append to and resets keep holds, after a run, what it held and then the tokens the host met. -/
theorem runEvents_stream {α : Type} {out : State → List α} {T : Tables}
    (happend : ∀ w s, ∃ ts, out (eventEffect T (.word w) s) = out s ++ ts) (hreset : ∀ s, out (applyReset s) = out s)
    (es : List HostEvent) (s : State) : out (runEvents T es s) = out s ++ seenTokens (runSeen out T es s) := by
  induction es generalizing s with
  | nil => exact (List.append_nil _).symm
  | cons e es ih =>
    have hevent : out (eventEffect T e s) = out s ++ seenTokens (eventSeen out T e s) := by
      cases e with
      | reset => exact (hreset s).trans (List.append_nil _).symm
      | word w =>
        obtain ⟨ts, hts⟩ := happend w s
        rw [eventSeen_of_append hts, seenTokens_map_token, hts]
    calc out (runEvents T es (eventEffect T e s))
        = out s ++ seenTokens (eventSeen out T e s) ++ seenTokens (runSeen out T es (eventEffect T e s)) := by
          rw [ih, hevent]
      _ = out s ++ seenTokens (runSeen out T (e :: es) s) := by
          rw [runSeen, seenTokens_append, List.append_assoc]

/-- The host meets a reset exactly at the resets of the run (log entry 17). -/
theorem runSeen_count_reset {α : Type} [DecidableEq α] (out : State → List α) (T : Tables) (es : List HostEvent)
    (s : State) : (runSeen out T es s).count .reset = es.count .reset := by
  induction es generalizing s with
  | nil => rfl
  | cons e es ih =>
    have hevent : (eventSeen out T e s).count .reset = [e].count .reset := by
      cases e with
      | reset => simp [eventSeen]
      | word w =>
        have htokens : Seen.reset ∉ eventSeen out T (.word w) s := by
          rw [eventSeen, List.mem_map]; rintro ⟨_, _, ⟨⟩⟩
        rw [List.count_eq_zero.2 htokens, List.count_eq_zero.2 (by simp)]
    rw [runSeen, List.count_append, hevent, ih, ← List.count_append, List.singleton_append]

/-- Settles O42: both streams are append-only and kept by reset. -/
theorem theHostSeesTheStreams : Obligations.TheHostSeesTheStreams := fun T es s =>
  ⟨runEvents_stream (fun w => eventEffect_enc_out_append T (.word w)) applyReset_enc_out es s,
    runEvents_stream (fun w => eventEffect_dec_out_append T (.word w)) applyReset_dec_out es s,
    runSeen_count_reset State.enc_out T es s, runSeen_count_reset State.dec_out T es s⟩

/-! The empty port and the reset state. -/

/-- Settles O7: `stepUsing` waits whatever its commands do. -/
theorem stepWaitsWithNothingPresented : Obligations.StepWaitsWithNothingPresented := fun _ => stepUsing_of_nil

/-- Settles O11: `State.reset` is read field by field. -/
theorem resetStateHoldsTheResetValues : Obligations.ResetStateHoldsTheResetValues :=
  ⟨⟨rfl, rfl⟩, ⟨rfl, rfl, rfl, rfl, rfl, rfl, rfl, rfl, rfl⟩, rfl, rfl, rfl, rfl⟩

/-- Settles O38: nothing is buffered, counted, pending or latched in `State.reset`. -/
theorem resetStateIsLegal : Obligations.ResetStateIsLegal := by
  have hlatch : State.reset.LatchLegal := ⟨fun _ => ⟨rfl, rfl⟩, fun h => absurd rfl h, nofun, nofun⟩
  exact ⟨Nat.one_pos, Nat.one_pos, rfl, nofun, fun _ => Nat.zero_le 1, fun _ => rfl, hlatch⟩

end Sys2Proof.Machine
end

section
/-! The statements of spec/20_memory.md on runs and on tables: the host events are taken in order (R62, R64), each engine
acts on its own, and reads its own tables (R51 to R53). -/

namespace Sys2Proof.Machine

/-! Agreement on an engine. -/

theorem State.SameEncoder.refl (s : State) : s.SameEncoder s := ⟨rfl, rfl, rfl⟩

theorem State.SameDecoder.refl (s : State) : s.SameDecoder s := ⟨rfl, rfl, rfl, rfl, rfl, rfl, rfl, rfl, rfl, rfl⟩

theorem State.SameEncoder.trans {s t u : State} (h : s.SameEncoder t) (h' : t.SameEncoder u) : s.SameEncoder u := by
  obtain ⟨hstage, hrem, hout⟩ := h
  simpa only [State.SameEncoder, hstage, hrem, hout] using h'

theorem State.SameDecoder.trans {s t u : State} (h : s.SameDecoder t) (h' : t.SameDecoder u) : s.SameDecoder u := by
  obtain ⟨hstage, hrem, hresidue, hvalid, hcp, hcount, herr, hpos, hecp, hout⟩ := h
  simpa only [State.SameDecoder, hstage, hrem, hresidue, hvalid, hcp, hcount, herr, hpos, hecp, hout] using h'

/-! The host events in order. -/

/-- Settles O6: the port's first word is taken and its command run. -/
theorem stepRunsTheDecodedCommand : Obligations.StepRunsTheDecodedCommand := fun _ _ _ _ => stepUsing_of_legal

/-- `s` with another list of events yet to be presented. -/
def State.withPort (s : State) (es : List HostEvent) : State := { s with port := es }

/-- No command reads or writes the port: it is local to its engine. -/
theorem effectWith_withPort (T : Tables) (i : Instr) (s : State) (es : List HostEvent) :
    effectWith T i (s.withPort es) = (effectWith T i s).withPort es := by
  cases hi : isEncCommand i with
  | true =>
    obtain ⟨v, ts, hs, hsame⟩ := encCommand_writes T hi s
    rw [hs, hsame (s.withPort es) (.refl s)]; rfl
  | false =>
    obtain ⟨v, ts, hs, hsame⟩ := decCommand_writes T hi s
    rw [hs, hsame (s.withPort es) (.refl s)]; rfl

/-- What an event does depends on no event after it. -/
theorem eventEffect_withPort (T : Tables) (e : HostEvent) (s : State) (es : List HostEvent) :
    eventEffect T e (s.withPort es) = (eventEffect T e s).withPort es := by
  cases e with
  | reset => rfl
  | word w =>
    cases hd : decode w with
    | ok i => rw [eventEffect_of_legal T _ hd, eventEffect_of_legal T _ hd, effectWith_withPort]
    | error e => rw [eventEffect_of_illegal T _ hd, eventEffect_of_illegal T _ hd]; rfl

/-- What a run does depends on no event after it (spec/20_memory.md R64). -/
theorem runEvents_withPort (T : Tables) (es : List HostEvent) (s : State) (rest : List HostEvent) :
    runEvents T es (s.withPort rest) = (runEvents T es s).withPort rest := by
  induction es generalizing s with
  | nil => rfl
  | cons e es ih => exact (congrArg (runEvents T es) (eventEffect_withPort T e s rest)).trans (ih _)

/-- A step over tables `T` takes the next event from the port and has its effect (spec/20_memory.md R64). -/
theorem stepWith_of_cons (T : Tables) {s : State} {e : HostEvent} {rest : List HostEvent} (h : s.port = e :: rest) :
    stepWith T s = .next ((eventEffect T e s).withPort rest) := by
  rw [← eventEffect_withPort]
  cases e with
  | reset => exact stepUsing_of_reset h
  | word w =>
    cases hd : decode w with
    | ok i => rw [eventEffect_of_legal T _ hd]; exact stepUsing_of_legal h hd
    | error e => rw [eventEffect_of_illegal T _ hd]; exact stepUsing_of_illegal h hd

/-- As many steps as there are events take them in order (R62, R64). -/
theorem coreWith_run_events (T : Tables) (es rest : List HostEvent) (s : State) (h : s.port = es ++ rest) :
    (coreWith T).run es.length s = .next ((runEvents T es s).withPort rest) := by
  induction es generalizing s with
  | nil => exact congrArg (fun es => Host.Outcome.next (s.withPort es)) h
  | cons e es ih =>
    have hstep : (coreWith T).step s = .next ((eventEffect T e s).withPort (es ++ rest)) := stepWith_of_cons T h
    calc (coreWith T).run (es.length + 1) s
        = (coreWith T).run es.length ((eventEffect T e s).withPort (es ++ rest)) := by simp only [Host.Core.run, hstep]
      _ = .next ((runEvents T es ((eventEffect T e s).withPort (es ++ rest))).withPort rest) := ih _ rfl
      _ = .next ((runEvents T (e :: es) s).withPort rest) := by rw [runEvents_withPort]; rfl

/-- The core takes the same steps as the machine over its tables. -/
theorem core_run_eq (n : Nat) (s : State) : core.run n s = (coreWith Config.tables).run n s := by
  have hstep : step = stepWith Config.tables := funext step_eq_stepWith_tables
  change Host.Core.run ⟨State, Fault, Refusal, step, State.reset⟩ n s = _
  rw [hstep]; rfl

/-- Settles O35, by induction on the events. -/
theorem stepsTakeTheEventsInOrder : Obligations.StepsTakeTheEventsInOrder :=
  ⟨coreWith_run_events, fun es rest s h => (core_run_eq es.length s).trans (coreWith_run_events Config.tables es rest s h)⟩

/-! Each engine's own events. -/

/-- A run keeps a relation between states in which the one run leaves out the events that `p` rejects, when an event `p`
accepts keeps it and an event `p` rejects leads to a related state. -/
theorem runEvents_filter {T : Tables} {p : HostEvent → Bool} {R : State → State → Prop}
    (htrans : ∀ s t u, R s t → R t u → R s u) (hskip : ∀ e s, p e = false → R s (eventEffect T e s))
    (hkeep : ∀ e s t, p e = true → R s t → R (eventEffect T e s) (eventEffect T e t))
    (es : List HostEvent) (s t : State) (h : R s t) : R (runEvents T (es.filter p) s) (runEvents T es t) := by
  induction es generalizing s t with
  | nil => exact h
  | cons e es ih =>
    cases hp : p e with
    | true => rw [List.filter_cons_of_pos hp]; exact ih _ _ (hkeep e s t hp h)
    | false => rw [List.filter_cons_of_neg (by simp [hp])]; exact ih _ _ (htrans _ _ _ h (hskip e t hp))

/-- An event that is not the encoder's leaves the encoder as it is (R31). -/
theorem eventEffect_keeps_encoder (T : Tables) (e : HostEvent) (s : State) (he : isEncEvent e = false) :
    s.SameEncoder (eventEffect T e s) := by
  cases e with
  | reset => cases he
  | word w =>
    cases hd : decode w with
    | ok i => rw [eventEffect_of_legal T s hd]; exact decCommand_keeps_encoder T (by simpa [isEncEvent, hd] using he) s
    | error e => rw [eventEffect_of_illegal T s hd]; exact .refl s

/-- An event that is not the decoder's leaves the decoder as it is (R31). -/
theorem eventEffect_keeps_decoder (T : Tables) (e : HostEvent) (s : State) (he : isDecEvent e = false) :
    s.SameDecoder (eventEffect T e s) := by
  cases e with
  | reset => cases he
  | word w =>
    cases hd : decode w with
    | ok i => rw [eventEffect_of_legal T s hd]; exact encCommand_keeps_decoder T (by simpa [isDecEvent, hd] using he) s
    | error e => rw [eventEffect_of_illegal T s hd]; exact .refl s

/-- The encoder's events lead from states that agree on the encoder to states that agree on it (R31). -/
theorem eventEffect_sameEncoder (T : Tables) (e : HostEvent) (s t : State) (he : isEncEvent e = true)
    (h : s.SameEncoder t) : (eventEffect T e s).SameEncoder (eventEffect T e t) := by
  cases e with
  | reset =>
    obtain ⟨-, -, hout⟩ := h
    exact ⟨rfl, rfl, hout⟩
  | word w =>
    cases hd : decode w with
    | ok i =>
      rw [eventEffect_of_legal T s hd, eventEffect_of_legal T t hd]
      exact encCommand_sameEncoder T (by simpa [isEncEvent, hd] using he) h
    | error e => simp [isEncEvent, hd] at he

/-- The decoder's events lead from states that agree on the decoder to states that agree on it (R31). -/
theorem eventEffect_sameDecoder (T : Tables) (e : HostEvent) (s t : State) (he : isDecEvent e = true)
    (h : s.SameDecoder t) : (eventEffect T e s).SameDecoder (eventEffect T e t) := by
  cases e with
  | reset =>
    obtain ⟨-, -, -, -, -, -, -, -, -, hout⟩ := h
    exact ⟨rfl, rfl, rfl, rfl, rfl, rfl, rfl, rfl, rfl, hout⟩
  | word w =>
    cases hd : decode w with
    | ok i =>
      rw [eventEffect_of_legal T s hd, eventEffect_of_legal T t hd]
      exact decCommand_sameDecoder T (by simpa [isDecEvent, hd] using he) h
    | error e => simp [isDecEvent, hd] at he

/-- Settles O34: the other engine's events and the illegal words keep an engine, its own events read nothing else. -/
theorem eachStreamDependsOnItsOwnEngine : Obligations.EachStreamDependsOnItsOwnEngine := fun T es s =>
  ⟨runEvents_filter (R := State.SameEncoder) (fun _ _ _ => State.SameEncoder.trans) (eventEffect_keeps_encoder T)
      (eventEffect_sameEncoder T) es s s (.refl s),
    runEvents_filter (R := State.SameDecoder) (fun _ _ _ => State.SameDecoder.trans) (eventEffect_keeps_decoder T)
      (eventEffect_sameDecoder T) es s s (.refl s)⟩

/-! The tables an engine reads. -/

/-- An encoder command reads `ENC_TABLE` and `TAIL_TABLE` only (spec/20_memory.md R51, R52). -/
theorem effectWith_enc_congr {T T' : Tables} {i : Instr} (hi : isEncCommand i = true) (henc : T'.enc = T.enc)
    (htail : T'.tail = T.tail) : effectWith T' i = effectWith T i := by
  cases i with
  | encByte b => funext s; simp only [effectWith, encByteEffect, henc]
  | encEnd =>
    have hfinal : finalSymbol T' = finalSymbol T := by funext stage rem; simp only [finalSymbol, henc, htail]
    funext s; simp only [effectWith, encEndEffect, hfinal]
  | decSym c => cases hi
  | decEnd => cases hi

/-- The checks read `TAIL_TABLE`, `MAXCP` and the entries of `DEC_TABLE` up to `MAXCP` only (R52, R53). -/
theorem checkSymbol_congr {T T' : Tables} (htail : T'.tail = T.tail) (hmax : T'.maxCp = T.maxCp)
    (hdec : ∀ c, c ≤ T.maxCp → T'.dec c = T.dec c) : checkSymbol T' = checkSymbol T := by
  funext c last res rem
  have hindex : tailIndex T' c = tailIndex T c := by simp only [tailIndex, htail]
  by_cases hm : T.maxCp < c
  · simp only [checkSymbol, hmax, if_pos hm]
  · simp only [checkSymbol, hmax, if_neg hm, hdec c (BitVec.not_lt.1 hm), hindex]

/-- PROCESS reads the tables through the checks alone. -/
theorem process_congr {T T' : Tables} (hcheck : checkSymbol T' = checkSymbol T) : process T' = process T := by
  funext c i last s; simp only [process, hcheck]

/-- The decoder's commands read the tables through the checks of PROCESS alone. -/
theorem effectWith_dec_congr {T T' : Tables} {i : Instr} (hi : isEncCommand i = false)
    (hcheck : checkSymbol T' = checkSymbol T) : effectWith T' i = effectWith T i := by
  have hpending : processPending T' = processPending T := by
    funext last s; simp only [processPending, process_congr hcheck]
  cases i with
  | encByte b => cases hi
  | encEnd => cases hi
  | decSym c => funext s; simp only [effectWith, decSymEffect, hpending]
  | decEnd => funext s; simp only [effectWith, decEndEffect, hpending]

/-- Settles O37: the encoder looks up `ENC_TABLE` and `TAIL_TABLE`, the decoder reads the tables in its checks alone. -/
theorem tablesReadByEachEngine : Obligations.TablesReadByEachEngine :=
  ⟨fun _ _ _ s hi henc htail => congrArg Host.Outcome.next (congrFun (effectWith_enc_congr hi henc htail) s),
    fun _ _ _ s hi htail hmax hdec =>
      congrArg Host.Outcome.next (congrFun (effectWith_dec_congr hi (checkSymbol_congr htail hmax hdec)) s)⟩

end Sys2Proof.Machine
end

section
/-! The tokens of a command in a legal state (spec/20_memory.md R62). -/

namespace Sys2Proof.Machine

/-- A symbol that is not last and passes supplies 11 bits: a terminator does not pass. -/
theorem checkSymbol_ok_notLast {T : Tables} {c : CodePoint} {res : Fin 8} {rem : Fin 9} {k v : Nat}
    (h : checkSymbol T c false res rem = .ok (k, v)) : k = 11 := by
  rcases checkSymbol_cases T c false res rem with ⟨-, he⟩ | ⟨-, v', -, hk⟩ | ⟨-, -, -, he⟩ | ⟨-, -, hl, -⟩ |
    ⟨-, -, hl, -⟩ | ⟨-, -, hl, -⟩
  · rw [he] at h; cases h
  · rw [hk] at h; cases h; rfl
  · rw [he] at h; cases h
  all_goals cases hl

/-- A last symbol that passes supplies `11 - res` or `8 - d_rem` bits. -/
theorem checkSymbol_ok_last {T : Tables} {c : CodePoint} {res : Fin 8} {rem : Fin 9} {k v : Nat}
    (h : checkSymbol T c true res rem = .ok (k, v)) : k = 11 - res.val ∨ k = 8 - rem.val := by
  rcases checkSymbol_cases T c true res rem with ⟨-, he⟩ | ⟨-, v', -, hk⟩ | ⟨-, -, hl, -⟩ | ⟨-, -, -, -, he⟩ |
    ⟨-, -, -, t, -, -, he⟩ | ⟨-, -, -, t, -, -, hk⟩
  · rw [he] at h; cases h
  · rw [hk] at h; cases h; exact .inl rfl
  · cases hl
  · rw [he] at h; cases h
  · rw [he] at h; cases h
  · rw [hk] at h; cases h; exact .inr rfl

/-- With the residue kept in step with `d_rem`, the last symbol fills one or two bytes exactly (spec/41_decoder.md R135,
R136). -/
theorem lastSymbol_fills_bytes {T : Tables} {c : CodePoint} {s : State} {k v : Nat} (hres : s.RemFollowsResidue)
    (h : checkSymbol T c true (nextResidue s.d_residue) s.d_rem = .ok (k, v)) :
    s.d_rem.val + k = 8 ∨ s.d_rem.val + k = 16 := by
  have hk := checkSymbol_ok_last h
  have hrem := s.d_rem.isLt
  rw [nextResidue_val] at hk
  unfold State.RemFollowsResidue at hres
  omega

/-- The final flush is one byte or none. -/
theorem finalFlush_length_le (acc r : Nat) : (finalFlush acc r).length ≤ 1 := by
  unfold finalFlush
  split
  · exact le_rfl
  · exact Nat.zero_le 1

/-- PROCESS of a symbol that is not last emits at most two bytes (R136). -/
theorem process_notLast_bytes (T : Tables) (c : CodePoint) (i : Pos) (s : State) :
    ∃ bs : List Byte, (process T c i false s).dec_out = s.dec_out ++ bs.map DecToken.byte ∧ bs.length ≤ 2 := by
  cases hc : checkSymbol T c false (nextResidue s.d_residue) s.d_rem with
  | error code => exact ⟨[], by rw [process_error i hc]; simp, Nat.zero_le 2⟩
  | ok kv =>
    obtain ⟨k, v⟩ := kv
    have hk : k = 11 := checkSymbol_ok_notLast hc
    have hrem := s.d_rem.isLt
    obtain ⟨-, hcount, -⟩ := drain_length (merge s.d_stage k v) (s.d_rem.val + k)
    exact ⟨_, by rw [process_ok_notLast i hc]; rfl, by omega⟩

/-- PROCESS of a last symbol emits at most two bytes when the residue is kept in step with `d_rem` (R136). -/
theorem process_last_bytes (T : Tables) (c : CodePoint) (i : Pos) {s : State} (hres : s.RemFollowsResidue) :
    ∃ bs : List Byte, (process T c i true s).dec_out = s.dec_out ++ bs.map DecToken.byte ∧ bs.length ≤ 2 := by
  cases hc : checkSymbol T c true (nextResidue s.d_residue) s.d_rem with
  | error code => exact ⟨[], by rw [process_error i hc]; simp, Nat.zero_le 2⟩
  | ok kv =>
    obtain ⟨k, v⟩ := kv
    have hfill := lastSymbol_fills_bytes hres hc
    obtain ⟨-, hcount, hleft⟩ := drain_length (merge s.d_stage k v) (s.d_rem.val + k)
    refine ⟨_, by rw [process_ok_last i hc]; rfl, ?_⟩
    have hflush := finalFlush_length_le (drain (merge s.d_stage k v) (s.d_rem.val + k)).2.1
      (drain (merge s.d_stage k v) (s.d_rem.val + k)).2.2
    rw [List.length_append]
    omega

/-- ENC_BYTE emits at most one symbol (spec/40_encoder.md R103). -/
theorem encByteEffect_tokens (T : Tables) (b : Byte) (s : State) :
    ∃ ts, (encByteEffect T b s).enc_out = s.enc_out ++ ts ∧ ts.length ≤ 1 := by
  rcases encByteEffect_cases T b s with ⟨-, v, a, r, h⟩ | ⟨-, a, r, h⟩
  · exact ⟨[.sym (T.enc v)], by rw [h]; rfl, le_rfl⟩
  · exact ⟨[], by rw [h]; simp, Nat.zero_le 1⟩

/-- DEC_SYM emits at most two bytes, in any state (R136). -/
theorem decSymEffect_bytes (T : Tables) (c : CodePoint) (s : State) :
    ∃ bs : List Byte, (decSymEffect T c s).dec_out = s.dec_out ++ bs.map DecToken.byte ∧ bs.length ≤ 2 := by
  rcases decSymEffect_cases T c s with ⟨-, h⟩ | ⟨-, -, h⟩ | ⟨-, -, code, -, h⟩ | ⟨-, -, k, v, -, h⟩
  · exact ⟨[], by rw [h]; simp, Nat.zero_le 2⟩
  · exact ⟨[], by rw [h]; simp, Nat.zero_le 2⟩
  · exact ⟨[], by rw [h]; simp, Nat.zero_le 2⟩
  · rw [h]; exact process_notLast_bytes T s.d_pend_cp (pendPos s) s

/-- DEC_END emits at most two bytes and then DecDone, when the residue is kept in step with `d_rem` (R136). -/
theorem decEndEffect_tokens (T : Tables) {s : State} (hres : s.RemFollowsResidue) :
    ∃ (bs : List Byte) (st : Status),
      (decEndEffect T s).dec_out = s.dec_out ++ bs.map DecToken.byte ++ [.decDone st] ∧ bs.length ≤ 2 := by
  rcases decEndEffect_cases T s with ⟨-, h⟩ | ⟨-, -, h⟩ | ⟨-, -, h⟩
  · exact ⟨[], callStatus s, by rw [h]; simp, Nat.zero_le 2⟩
  · exact ⟨[], callStatus s, by rw [h]; simp, Nat.zero_le 2⟩
  · obtain ⟨bs, hout, hlen⟩ := process_last_bytes T s.d_pend_cp (pendPos s) hres
    exact ⟨bs, _, by rw [h, endDecodeCall_dec_out, hout], hlen⟩

/-- Settles O32: of the invariant only the residue's clause is needed, for DEC_END. -/
theorem tokensPerCommand : Obligations.TokensPerCommand := by
  rintro s ⟨-, -, hres, -⟩
  refine ⟨fun b => ?_, fun c => ?_, ?_⟩
  · obtain ⟨ts, hout, hlen⟩ := encByteEffect_tokens Config.tables b s
    exact ⟨_, ts, exec_eq_effect (.encByte b) s, hout, hlen⟩
  · obtain ⟨bs, hout, hlen⟩ := decSymEffect_bytes Config.tables c s
    exact ⟨_, bs, exec_eq_effect (.decSym c) s, hout, hlen⟩
  · obtain ⟨bs, st, hout, hlen⟩ := decEndEffect_tokens Config.tables hres
    exact ⟨_, bs, st, exec_eq_effect .decEnd s, hout, hlen⟩

end Sys2Proof.Machine
end

section
/-! The bit stream of a buffer and the encoder that packs it (spec/20_memory.md R58, R59; spec/40_encoder.md R104). -/

namespace Sys2Proof.Machine

namespace Reference

/-! The number that a bit string stands for. -/

/-- Bits that follow `n` come below it. -/
theorem foldl_bits (bits : List Bool) (n : Nat) :
    bits.foldl (fun n b => 2 * n + b.toNat) n = n * 2 ^ bits.length + bitsValue bits := by
  induction bits generalizing n with
  | nil => simp [bitsValue]
  | cons b bits ih =>
    rw [bitsValue, List.foldl_cons, List.foldl_cons, ih, ih, List.length_cons, pow_succ]
    ring

/-- The first of two bit strings is on top. -/
theorem bitsValue_append (bits bits' : List Bool) :
    bitsValue (bits ++ bits') = bitsValue bits * 2 ^ bits'.length + bitsValue bits' := by
  rw [bitsValue, List.foldl_append, foldl_bits, ← bitsValue]

/-- The first bit is the most significant one. -/
theorem bitsValue_cons (b : Bool) (bits : List Bool) :
    bitsValue (b :: bits) = b.toNat * 2 ^ bits.length + bitsValue bits := by
  rw [← List.singleton_append, bitsValue_append]; simp [bitsValue]

/-- The low `n` bits of a number, from bit `n - 1` down, stand for its remainder. -/
theorem bitsValue_testBits (m n : Nat) : bitsValue ((List.range n).reverse.map m.testBit) = m % 2 ^ n := by
  induction n with
  | zero => simp [bitsValue, Nat.mod_one]
  | succ n ih =>
    rw [List.range_succ, List.reverse_concat, List.map_cons, bitsValue_cons, ih, Nat.mod_pow_succ, ← Nat.toNat_testBit,
      List.length_map, List.length_reverse, List.length_range]
    ring

/-- A bit string's number fits its length. -/
theorem bitsValue_lt (bits : List Bool) : bitsValue bits < 2 ^ bits.length := by
  induction bits with
  | nil => exact Nat.one_pos
  | cons b bits ih =>
    have hb : b.toNat ≤ 1 := Bool.toNat_le b
    have hmul : b.toNat * 2 ^ bits.length ≤ 1 * 2 ^ bits.length := Nat.mul_le_mul_right _ hb
    rw [bitsValue_cons, List.length_cons, pow_succ]
    omega

/-- The upper bits of a bit string are the quotient, the lower ones the remainder. -/
theorem bitsValue_append_div_mod (bits bits' : List Bool) :
    bitsValue (bits ++ bits') / 2 ^ bits'.length = bitsValue bits ∧
      bitsValue (bits ++ bits') % 2 ^ bits'.length = bitsValue bits' := by
  rw [bitsValue_append, Nat.mul_comm]
  exact ⟨by rw [Nat.mul_add_div (by positivity), Nat.div_eq_of_lt (bitsValue_lt bits'), Nat.add_zero],
    by rw [Nat.mul_add_mod, Nat.mod_eq_of_lt (bitsValue_lt bits')]⟩

/-! A byte's bits. -/

@[simp] theorem byteBits_length (b : Byte) : (byteBits b).length = 8 := rfl

/-- A byte's bit `k` in stream order is its bit `7 - k` (R58). -/
theorem byteBits_getElem? (b : Byte) {k : Nat} (hk : k < 8) : (byteBits b)[k]? = some (b.getLsbD (7 - k)) := by
  interval_cases k <;> rfl

/-- A byte's bits stand for the byte. -/
theorem bitsValue_byteBits (b : Byte) : bitsValue (byteBits b) = b.toNat := by
  have hbits : byteBits b = (List.range 8).reverse.map b.toNat.testBit := rfl
  rw [hbits, bitsValue_testBits, Nat.mod_eq_of_lt b.isLt]

/-- The first `n` bits of a byte are its top bits. -/
theorem bitsValue_take_byteBits (b : Byte) (n : Nat) :
    bitsValue ((byteBits b).take n) = b.toNat / 2 ^ (8 - n) := by
  obtain ⟨hdiv, -⟩ := bitsValue_append_div_mod ((byteBits b).take n) ((byteBits b).drop n)
  rw [← hdiv, List.take_append_drop, bitsValue_byteBits, List.length_drop, byteBits_length]

/-- The bits of a byte after its first `n` are its low bits. -/
theorem bitsValue_drop_byteBits (b : Byte) (n : Nat) :
    bitsValue ((byteBits b).drop n) = b.toNat % 2 ^ (8 - n) := by
  obtain ⟨-, hmod⟩ := bitsValue_append_div_mod ((byteBits b).take n) ((byteBits b).drop n)
  rw [← hmod, List.take_append_drop, bitsValue_byteBits, List.length_drop, byteBits_length]

/-! The bit stream. -/

@[simp] theorem bitStream_nil : bitStream [] = [] := rfl

@[simp] theorem bitStream_cons (b : Byte) (bytes : List Byte) :
    bitStream (b :: bytes) = byteBits b ++ bitStream bytes := rfl

/-- A buffer's stream has 8 bits for each byte. -/
theorem bitStream_length (bytes : List Byte) : (bitStream bytes).length = 8 * bytes.length := by
  induction bytes with
  | nil => rfl
  | cons b bytes ih => rw [bitStream_cons, List.length_append, byteBits_length, ih, List.length_cons]; omega

/-- Stream bit `k` is bit `7 - (k mod 8)` of byte `k / 8` (R58). -/
theorem bitStream_getElem? (bytes : List Byte) (k : Nat) (h : k / 8 < bytes.length) :
    (bitStream bytes)[k]? = some ((bytes[k / 8]'h).getLsbD (7 - k % 8)) := by
  induction bytes generalizing k with
  | nil => cases h
  | cons b bytes ih =>
    rw [bitStream_cons]
    by_cases hk : k < 8
    · have hdiv : k / 8 = 0 := Nat.div_eq_of_lt hk
      rw [List.getElem?_append_left (by simpa using hk), byteBits_getElem? b hk, Nat.mod_eq_of_lt hk]
      simp only [hdiv, List.getElem_cons_zero]
    · obtain ⟨j, rfl⟩ : ∃ j, k = j + 8 := ⟨k - 8, by omega⟩
      have hdiv : (j + 8) / 8 = j / 8 + 1 := by omega
      have hj : j / 8 < bytes.length := by rw [List.length_cons] at h; omega
      rw [List.getElem?_append_right (by simp), byteBits_length, Nat.add_sub_cancel, ih j hj, Nat.add_mod_right]
      simp only [hdiv, List.getElem_cons_succ]

end Reference

/-- Settles O45, byte by byte. -/
theorem bitStreamOrder : Obligations.BitStreamOrder := fun bytes k h =>
  ⟨Reference.bitStream_length bytes, Reference.bitStream_getElem? bytes k h⟩

/-! The encoder's registers as buffered bits (spec/10_state.md R21, R22). -/

/-- The encoder's registers hold the bits `buf`: `e_rem` of them, `e_stage` their number. -/
def State.Buffers (s : State) (buf : List Bool) : Prop :=
  buf.length = s.e_rem.val ∧ Reference.bitsValue buf = s.e_stage.toNat

/-- `ENC_INIT` holds no bits. -/
theorem State.EncAtInit.buffers_nil {s : State} (h : s.EncAtInit) : s.Buffers [] := by
  obtain ⟨hstage, hrem⟩ := h
  exact ⟨by rw [hrem]; rfl, by rw [hstage]; rfl⟩

/-- Registers written with the count and the number of some bits hold those bits. -/
theorem State.buffers_setEnc (s : State) (buf : List Bool) (h : buf.length ≤ 10) :
    (s.setEnc (BitVec.ofNat 10 (Reference.bitsValue buf)) (Fin.ofNat 11 buf.length)).Buffers buf := by
  have hlt : Reference.bitsValue buf < 2 ^ 10 :=
    (Reference.bitsValue_lt buf).trans_le (Nat.pow_le_pow_right (by omega) h)
  exact ⟨(Nat.mod_eq_of_lt (by omega)).symm, by rw [State.setEnc_e_stage, BitVec.toNat_ofNat, Nat.mod_eq_of_lt hlt]⟩

/-- ENC_BYTE with at most 2 bits buffered buffers the byte's bits after them. -/
theorem encByteEffect_buffers_fold (T : Tables) (b : Byte) {s : State} {buf : List Bool} (hbuf : s.Buffers buf)
    (h : s.e_rem.val ≤ 2) :
    (encByteEffect T b s).Buffers (buf ++ Reference.byteBits b) ∧ (encByteEffect T b s).enc_out = s.enc_out := by
  obtain ⟨hlen, hval⟩ := hbuf
  have hlen' : (buf ++ Reference.byteBits b).length = s.e_rem.val + 8 := by simp [hlen]
  have hval' : Reference.bitsValue (buf ++ Reference.byteBits b) = s.e_stage.toNat * 2 ^ 8 + b.toNat := by
    rw [Reference.bitsValue_append, hval, Reference.bitsValue_byteBits, Reference.byteBits_length]
  rw [encByteEffect_fold T b h, ← hval', ← hlen']
  exact ⟨State.buffers_setEnc _ _ (by omega), rfl⟩

/-- ENC_BYTE with 3 bits or more buffered emits the main symbol of the buffered bits and the byte's first ones, 11 in all,
and buffers the rest of the byte's (spec/30_encoding.md R71). -/
theorem encByteEffect_buffers_emit (T : Tables) (b : Byte) {s : State} {buf : List Bool} (hbuf : s.Buffers buf)
    (h : 3 ≤ s.e_rem.val) :
    (encByteEffect T b s).Buffers ((Reference.byteBits b).drop (11 - buf.length)) ∧
      (encByteEffect T b s).enc_out = s.enc_out ++
        [.sym (T.enc (BitVec.ofNat 11
          (Reference.bitsValue (buf ++ (Reference.byteBits b).take (11 - buf.length)))))] := by
  obtain ⟨hlen, hval⟩ := hbuf
  have hrem := s.e_rem.isLt
  have hneed : encNeed s.e_rem.val = 11 - buf.length := by rw [hlen]; rfl
  have hkept : ((Reference.byteBits b).drop (11 - buf.length)).length = s.e_rem.val - 3 := by
    rw [List.length_drop, Reference.byteBits_length]; omega
  have hlow : Reference.bitsValue ((Reference.byteBits b).drop (11 - buf.length)) = b.toNat % 2 ^ (s.e_rem.val - 3) := by
    rw [Reference.bitsValue_drop_byteBits, show 8 - (11 - buf.length) = s.e_rem.val - 3 by omega]
  have hindex : Reference.bitsValue (buf ++ (Reference.byteBits b).take (11 - buf.length)) =
      encIndex s.e_stage.toNat (11 - buf.length) b.toNat := by
    rw [encIndex_eq _ _ (by omega), Reference.bitsValue_append, hval, Reference.bitsValue_take_byteBits,
      List.length_take, Reference.byteBits_length, Nat.min_eq_left (by omega)]
  rw [encByteEffect_emit T b h, hneed, hindex, ← hlow, ← hkept]
  exact ⟨State.buffers_setEnc _ _ (by omega), rfl⟩

/-! The packed stream. -/

namespace Reference

/-- A first group of 11 bits is a main symbol, and the rest of the stream follows. -/
theorem packBits_group (T : Tables) (fuel : Nat) {group : List Bool} (rest : List Bool) (h : group.length = 11) :
    packBits T (fuel + 1) (group ++ rest) = T.enc (BitVec.ofNat 11 (bitsValue group)) :: packBits T fuel rest := by
  rw [packBits, if_pos (by simp [h]), List.take_left' h, List.drop_left' h]

/-- A last group of fewer than 11 bits is the encoder's final symbol, or none. -/
theorem packBits_last (T : Tables) (fuel : Nat) {s : State} {buf : List Bool} (hbuf : s.Buffers buf) :
    packBits T (fuel + 1) buf = (finalSymbol T s.e_stage s.e_rem).toList := by
  obtain ⟨hlen, hval⟩ := hbuf
  have hrem := s.e_rem.isLt
  rw [packBits, if_neg (by omega), hlen, hval, BitVec.ofNat_toNat, BitVec.ofNat_toNat, finalSymbol]
  split_ifs <;> rfl

end Reference

/-- ENC_END emits the final symbol, if there is one, and EncDone. -/
theorem encEndEffect_enc_out (T : Tables) (s : State) :
    (encEndEffect T s).enc_out =
      s.enc_out ++ (finalSymbol T s.e_stage s.e_rem).toList.map EncToken.sym ++ [.encDone] := by
  cases hf : finalSymbol T s.e_stage s.e_rem with
  | none => simp [encEndEffect, hf]
  | some cp => simp [encEndEffect, hf]

/-- An encode call's first byte. -/
theorem applyCommands_encodeCommands_cons (T : Tables) (b : Byte) (bytes : List Byte) (s : State) :
    applyCommands T (encodeCommands (b :: bytes)) s =
      applyCommands T (encodeCommands bytes) (encByteEffect T b s) := rfl

/-- The rest of an encode call, from a state in which the bits `buf` are buffered, emits the symbols of the stream of `buf`
and the bytes to come. Each byte is folded into `buf`, or completes the stream's next group. -/
theorem encodeCommands_enc_out (T : Tables) (bytes : List Byte) (fuel : Nat) (s : State) (buf : List Bool)
    (hbuf : s.Buffers buf) (hfuel : (buf ++ Reference.bitStream bytes).length ≤ fuel) :
    (applyCommands T (encodeCommands bytes) s).enc_out =
      s.enc_out ++ (Reference.packBits T (fuel + 1) (buf ++ Reference.bitStream bytes)).map EncToken.sym ++
        [.encDone] := by
  induction bytes generalizing fuel s buf with
  | nil =>
    rw [Reference.bitStream_nil, List.append_nil, Reference.packBits_last T fuel hbuf]
    exact encEndEffect_enc_out T s
  | cons b bytes ih =>
    rw [applyCommands_encodeCommands_cons]
    rw [Reference.bitStream_cons, ← List.append_assoc] at hfuel ⊢
    rcases Nat.lt_or_ge s.e_rem.val 3 with h | h
    · obtain ⟨hbuf', hout⟩ := encByteEffect_buffers_fold T b hbuf (by omega)
      rw [ih fuel _ _ hbuf' hfuel, hout]
    · obtain ⟨hbuf', hout⟩ := encByteEffect_buffers_emit T b hbuf h
      obtain ⟨hlen, -⟩ := hbuf
      have hrem := s.e_rem.isLt
      have hgroup : (buf ++ (Reference.byteBits b).take (11 - buf.length)).length = 11 := by
        rw [List.length_append, List.length_take, Reference.byteBits_length]; omega
      have hsplit : buf ++ Reference.byteBits b ++ Reference.bitStream bytes =
          (buf ++ (Reference.byteBits b).take (11 - buf.length)) ++
            ((Reference.byteBits b).drop (11 - buf.length) ++ Reference.bitStream bytes) := by
        conv_lhs => rw [← List.take_append_drop (11 - buf.length) (Reference.byteBits b)]
        simp only [List.append_assoc]
      rw [hsplit, List.length_append, hgroup] at hfuel
      obtain ⟨fuel, rfl⟩ : ∃ n, fuel = n + 1 := ⟨fuel - 1, by omega⟩
      rw [hsplit, Reference.packBits_group T _ _ hgroup, ih fuel _ _ hbuf' (by omega), hout]
      simp

/-- The symbols of a call's tokens. -/
theorem symsOf_map_sym_encDone (cps : List CodePoint) : symsOf (cps.map EncToken.sym ++ [.encDone]) = cps := by
  simp [symsOf, List.filterMap_map]

/-- Settles O46: an encode call begins with no bits buffered. -/
theorem encodeCallPacksTheBitStream : Obligations.EncodeCallPacksTheBitStream := fun T bytes => by
  have hout := encodeCommands_enc_out T bytes (Reference.bitStream bytes).length State.reset []
    (State.EncAtInit.buffers_nil ⟨rfl, rfl⟩) le_rfl
  rw [encodeCall, encodeTokens, hout]
  exact symsOf_map_sym_encDone _

end Sys2Proof.Machine
end

section
/-! The statements of spec/30_encoding.md on command words (R73 to R76): a command's word matches its row of the opcode table
and carries the operand in the low bits the row's mask leaves free, and no word matches two rows. -/

namespace Sys2Proof

open Laws.MatchesRow

/-! A word of a row: the pattern on top, the operand below. -/

/-- A word is its bits under the mask and its low `n` bits, when the mask is every bit from `n` up. -/
theorem and_or_lowBits {n : Nat} {m : Word} (hm : ∀ k < 32, m.getLsbD k = decide (n ≤ k)) (w : Word) :
    (w &&& m) ||| (w.extractLsb' 0 n).setWidth 32 = w := by
  refine BitVec.eq_of_getLsbD_eq fun k hk => ?_
  simp only [BitVec.getLsbD_or, BitVec.getLsbD_and, BitVec.getLsbD_setWidth, BitVec.getLsbD_extractLsb', hm k hk,
    Nat.zero_add]
  rcases Nat.lt_or_ge k n with h | h
  · simp [h, hk]
  · simp [h]

/-- The low `n` bits of a pattern that leaves them free, with an operand put in, are the operand. -/
theorem lowBits_or_setWidth {n : Nat} (hn : n ≤ 32) {p : Word} (hp : p.extractLsb' 0 n = 0#n) (b : BitVec n) :
    (p ||| b.setWidth 32).extractLsb' 0 n = b := by
  rw [BitVec.extractLsb'_or, hp, BitVec.zero_or]
  refine BitVec.eq_of_getLsbD_eq fun k hk => ?_
  simp [hk, Nat.lt_of_lt_of_le hk hn]

/-- The operand of ENC_BYTE is its word's low 8 bits (spec/30_encoding.md R75). -/
theorem lowBits_encode_encByte (b : Byte) : (encode (.encByte b)).extractLsb' 0 8 = b :=
  lowBits_or_setWidth (by decide) (by decide) b

/-- The operand of DEC_SYM is its word's low 21 bits (R75). -/
theorem lowBits_encode_decSym (c : CodePoint) : (encode (.decSym c)).extractLsb' 0 21 = c :=
  lowBits_or_setWidth (by decide) (by decide) c

/-- A word of ENC_BYTE's row is the word of the command with its low bits. -/
theorem encode_encByte_lowBits {w : Word} (h : w &&& 0xFFFFFF00#32 = 0x01000000#32) :
    encode (.encByte (w.extractLsb' 0 8)) = w := by
  rw [encode, ← h]; exact and_or_lowBits (by decide) w

/-- A word of DEC_SYM's row is the word of the command with its low bits. -/
theorem encode_decSym_lowBits {w : Word} (h : w &&& 0xFFE00000#32 = 0x10000000#32) :
    encode (.decSym (w.extractLsb' 0 21)) = w := by
  rw [encode, ← h]; exact and_or_lowBits (by decide) w

/-- The rows without an operand name one word. -/
theorem and_full (w : Word) : w &&& 0xFFFFFFFF#32 = w := BitVec.and_allOnes

/-! The rows of the opcode table. -/

/-- Every command's word matches its row (R74). -/
theorem encode_matches_row (i : Instr) : Statement i := by
  cases i with
  | encByte b => exact encByte b
  | encEnd => exact encEnd
  | decSym c => exact decSym c
  | decEnd => exact decEnd

/-- Two patterns differ in no bit that both masks require, when one word matches both. -/
theorem patterns_agree {w m m' p p' : Word} (h : w &&& m = p) (h' : w &&& m' = p') :
    (p ^^^ p') &&& (m &&& m') = 0#32 := by
  rw [← h, ← h']
  refine BitVec.eq_of_getLsbD_eq fun k _ => ?_
  simp only [BitVec.getLsbD_and, BitVec.getLsbD_xor, BitVec.getLsbD_zero]
  cases w.getLsbD k <;> cases m.getLsbD k <;> simp

/-- No word matches two rows (R76: the rows "do not overlap"). -/
theorem matched_row_unique {w : Word} {r r' : OpcodeRow} (hr : r ∈ opcodeTable) (hr' : r' ∈ opcodeTable)
    (h : w &&& r.mask = r.pattern) (h' : w &&& r'.mask = r'.pattern) : r = r' := by
  have hsymm : Std.Symm fun r r' : OpcodeRow => ¬ (w &&& r.mask = r.pattern ∧ w &&& r'.mask = r'.pattern) :=
    ⟨fun _ _ hnot hboth => hnot hboth.symm⟩
  have hapart : opcodeTable.Pairwise fun r r' => ¬ (w &&& r.mask = r.pattern ∧ w &&& r'.mask = r'.pattern) :=
    opcodeTable_rows_apart.imp fun hne ⟨h, h'⟩ => hne (patterns_agree h h')
  by_contra hne
  exact hapart.forall hr hr' hne ⟨h, h'⟩

/-- A word that matches a row has its opcode: every mask covers `w[31:24]` (R73). -/
theorem opcodeOf_of_matches {w : Word} {r : OpcodeRow} (hr : r ∈ opcodeTable) (h : w &&& r.mask = r.pattern) :
    opcodeOf w ∈ usedOpcodes := by
  have hmask : ∀ r ∈ opcodeTable, opcodeOf r.mask = BitVec.allOnes 8 := by decide
  have hpattern : ∀ r ∈ opcodeTable, opcodeOf r.pattern ∈ usedOpcodes := by decide
  have hopcode : opcodeOf r.pattern = opcodeOf w := by
    rw [← h, opcodeOf, BitVec.extractLsb'_and, ← opcodeOf, ← opcodeOf, hmask r hr, BitVec.and_allOnes]
  exact hopcode ▸ hpattern r hr

/-! The decoder, row by row. -/

theorem decode_of_encByte_row {w : Word} (h : w &&& 0xFFFFFF00#32 = 0x01000000#32) :
    decode w = .ok (.encByte (w.extractLsb' 0 8)) := if_pos h

theorem decode_of_encEnd_row {w : Word} (h : w &&& 0xFFFFFFFF#32 = 0x02000000#32) : decode w = .ok .encEnd := by
  rw [and_full] at h; subst h; rfl

/-- The two rows tried before DEC_SYM's do not match a word that matches it. -/
theorem decode_of_decSym_row {w : Word} (h : w &&& 0xFFE00000#32 = 0x10000000#32) :
    decode w = .ok (.decSym (w.extractLsb' 0 21)) := by
  have hencByte : ¬ w &&& 0xFFFFFF00#32 = 0x01000000#32 := fun h' => by
    have := matched_row_unique (encByte 0#8).1 (decSym 0#21).1 h' h
    simp [row] at this
  have hencEnd : w ≠ 0x02000000#32 := by rintro rfl; revert h; decide
  rw [decode, if_neg hencByte, if_neg hencEnd, if_pos h]

theorem decode_of_decEnd_row {w : Word} (h : w &&& 0xFFFFFFFF#32 = 0x11000000#32) : decode w = .ok .decEnd := by
  rw [and_full] at h; subst h; rfl

/-- Everything the decoder can answer: a command whose operand is the word's low bits and whose word is the one decoded, or
none. -/
theorem decode_cases (w : Word) :
    (decode w = .ok (.encByte (w.extractLsb' 0 8)) ∧ encode (.encByte (w.extractLsb' 0 8)) = w) ∨
    (decode w = .ok .encEnd ∧ encode .encEnd = w) ∨
    (decode w = .ok (.decSym (w.extractLsb' 0 21)) ∧ encode (.decSym (w.extractLsb' 0 21)) = w) ∨
    (decode w = .ok .decEnd ∧ encode .decEnd = w) ∨
    decode w = .error (illegalReason w) := by
  unfold decode
  by_cases hb : w &&& 0xFFFFFF00#32 = 0x01000000#32
  · exact .inl ⟨if_pos hb, encode_encByte_lowBits hb⟩
  by_cases he : w = 0x02000000#32
  · exact .inr (.inl ⟨by rw [if_neg hb, if_pos he], he.symm⟩)
  by_cases hs : w &&& 0xFFE00000#32 = 0x10000000#32
  · exact .inr (.inr (.inl ⟨by rw [if_neg hb, if_neg he, if_pos hs], encode_decSym_lowBits hs⟩))
  by_cases hd : w = 0x11000000#32
  · exact .inr (.inr (.inr (.inl ⟨by rw [if_neg hb, if_neg he, if_neg hs, if_pos hd], hd.symm⟩)))
  · exact .inr (.inr (.inr (.inr (by rw [if_neg hb, if_neg he, if_neg hs, if_neg hd]))))

/-- Decoding a command's word gives the command back: its row says which command it is, its low bits are the operand. -/
theorem decode_encode (i : Instr) : decode (encode i) = .ok i := by
  obtain ⟨-, hrow⟩ := encode_matches_row i
  cases i with
  | encByte b => rw [decode_of_encByte_row hrow, lowBits_encode_encByte]
  | encEnd => exact decode_of_encEnd_row hrow
  | decSym c => rw [decode_of_decSym_row hrow, lowBits_encode_decSym]
  | decEnd => exact decode_of_decEnd_row hrow

/-- A word that decodes to a command is that command's word. -/
theorem encode_of_decode {w : Word} {i : Instr} (h : decode w = .ok i) : encode i = w := by
  rcases decode_cases w with ⟨hd, he⟩ | ⟨hd, he⟩ | ⟨hd, he⟩ | ⟨hd, he⟩ | hd
  all_goals rw [hd] at h; cases h
  all_goals exact he

/-- A word that decodes to a command matches the command's row. -/
theorem matches_row_of_decode {w : Word} {i : Instr} (h : decode w = .ok i) : w &&& (row i).mask = (row i).pattern := by
  obtain ⟨-, hrow⟩ := encode_matches_row i
  rwa [encode_of_decode h] at hrow

/-- A word that matches no row is illegal. -/
theorem decode_error_of_no_row {w : Word} (h : ∀ r ∈ opcodeTable, w &&& r.mask ≠ r.pattern) :
    ∃ e, decode w = .error e := by
  cases hd : decode w with
  | error e => exact ⟨e, rfl⟩
  | ok i =>
    obtain ⟨hmem, -⟩ := encode_matches_row i
    exact absurd (matches_row_of_decode hd) (h _ hmem)

/-! The statements. -/

/-- Settles O2, one row at a time; every command is well-formed. -/
theorem decodeOfEncodeIsTheCommand : Obligations.DecodeOfEncodeIsTheCommand := fun i _ => decode_encode i

/-- Settles O3: the decoder's answers put together again. -/
theorem wordOfADecodedCommand : Obligations.WordOfADecodedCommand := fun _ _ => encode_of_decode

/-- Settles O4: a row's words decode to its command, and a decoded command's word matches its row. -/
theorem operandsAreTheWordsLowBits : Obligations.OperandsAreTheWordsLowBits := fun w =>
  ⟨⟨decode_of_encByte_row, matches_row_of_decode⟩, ⟨decode_of_encEnd_row, matches_row_of_decode⟩,
    ⟨decode_of_decSym_row, matches_row_of_decode⟩, ⟨decode_of_decEnd_row, matches_row_of_decode⟩, fun i h => by
      rcases decode_cases w with ⟨hd, -⟩ | ⟨hd, -⟩ | ⟨hd, -⟩ | ⟨hd, -⟩ | hd
      all_goals rw [hd] at h; cases h
      · exact .inl rfl
      · exact .inr (.inl rfl)
      · exact .inr (.inr (.inl rfl))
      · exact .inr (.inr (.inr rfl))⟩

/-- Settles O5: a word of no row does not decode, and a word of a row has the row's opcode. -/
theorem illegalWordSetsOnlyTheFaultFlag : Obligations.IllegalWordSetsOnlyTheFaultFlag := by
  have hopcode : ∀ w : Word, opcodeOf w ∉ usedOpcodes → ∀ r ∈ opcodeTable, w &&& r.mask ≠ r.pattern :=
    fun _ hw _ hr h => hw (opcodeOf_of_matches hr h)
  refine ⟨fun s w rest hp hrow => ?_, hopcode, hopcode 0#32 (by decide), fun _ _ hr _ hr' => matched_row_unique hr hr'⟩
  obtain ⟨e, hd⟩ := decode_error_of_no_row hrow
  exact Machine.stepUsing_of_illegal hp hd

/-- Settles O1: the decoder is run on each word. -/
theorem sampleWordsDecode : Obligations.SampleWordsDecode :=
  ⟨rfl, rfl, rfl, rfl, rfl, rfl, ⟨_, rfl⟩, ⟨_, rfl⟩, ⟨_, rfl⟩, ⟨_, rfl⟩, ⟨_, rfl⟩, ⟨_, rfl⟩, ⟨_, rfl⟩⟩

end Sys2Proof
end

section
/-! The encoder's index, bit by bit (spec/30_encoding.md R71). -/

namespace Sys2Proof.Machine

/-- Bit `k` of the index is bit `k + leftover` of the byte below `need`, and bit `k - need` of the buffered bits above. -/
theorem encIndex_testBit {need : Nat} (stage : Nat) (b : Byte) (k : Nat) (h : need ≤ 8) :
    (encIndex stage need b.toNat).testBit k =
      if k < need then b.toNat.testBit (k + (8 - need)) else stage.testBit (k - need) := by
  rw [encIndex, Nat.testBit_or, Nat.testBit_shiftLeft, Nat.testBit_shiftRight, Nat.add_comm (8 - need)]
  split
  case isTrue hk => simp [Nat.not_le.2 hk]
  case isFalse hk =>
    have hover : b.toNat.testBit (k + (8 - need)) = false :=
      Nat.testBit_lt_two_pow (b.isLt.trans_le (Nat.pow_le_pow_right (by decide) (by omega)))
    simp [Nat.not_lt.1 hk, hover]

/-- In a legal state the address is the whole index. -/
theorem encAddress_encIndex_toNat (b : Byte) {s : State} (hs : s.EncLegal) (h : 3 ≤ s.e_rem.val) :
    (encAddress (encIndex s.e_stage.toNat (encNeed s.e_rem.val) b.toNat)).toNat =
      encIndex s.e_stage.toNat (encNeed s.e_rem.val) b.toNat :=
  Nat.mod_eq_of_lt (encIndex_lt b hs h (by omega))

/-- In a legal state `e_stage` fits any index of at least `e_rem` bits. -/
theorem e_stage_setWidth_toNat {s : State} (hs : s.EncLegal) {n : Nat} (h : s.e_rem.val ≤ n) :
    (s.e_stage.setWidth n).toNat = s.e_stage.toNat := by
  rw [BitVec.toNat_setWidth]
  exact Nat.mod_eq_of_lt (Nat.lt_of_lt_of_le hs (Nat.pow_le_pow_right (by decide) h))

/-- Settles O16: the index's bits are those of `encIndex`; the final index is `e_stage` at the width of its table's port. -/
theorem indexIsBufferedBitsThenByteBits : Obligations.IndexIsBufferedBitsThenByteBits := by
  refine ⟨fun b s hs h3 => ?_, fun s hs h0 => ?_⟩
  · have hneed : encNeed s.e_rem.val ≤ 8 := by unfold encNeed; omega
    have hidx := encAddress_encIndex_toNat b hs h3
    refine ⟨_, _, exec_eq_effect (.encByte b) s, congrArg State.enc_out (encByteEffect_emit Config.tables b h3), hidx,
      fun k _ => ?_⟩
    rw [← BitVec.testBit_toNat, hidx, encIndex_testBit _ b k hneed, BitVec.testBit_toNat, BitVec.testBit_toNat]; rfl
  · refine ⟨_, exec_eq_effect .encEnd s, ?_⟩
    rcases encEndEffect_cases Config.tables s with ⟨h, -⟩ | ⟨-, h3, ht⟩ | ⟨h4, ht⟩
    · omega
    · exact .inl ⟨h3, _, e_stage_setWidth_toNat hs h3, by rw [effectWith, ht]; simp⟩
    · exact .inr ⟨h4, _, e_stage_setWidth_toNat hs (by omega), by rw [effectWith, ht]; simp⟩

end Sys2Proof.Machine
end

section
/-! The assembler's statements (spec/30_encoding.md R80 to R82): a command's word as a number, and several statements one
after another. -/

namespace Sys2Proof

/-- A pattern that leaves the low bits free, with a number put in that fits them. -/
theorem ofNat_or_setWidth {n : Nat} (a : Nat) (b : BitVec n) :
    BitVec.ofNat 32 (2 ^ n * a) ||| b.setWidth 32 = BitVec.ofNat 32 (2 ^ n * a + b.toNat) := by
  rw [Nat.two_pow_add_eq_or_of_lt b.isLt, BitVec.ofNat_or, BitVec.ofNat_toNat]

/-- The word of ENC_BYTE as a number (R80). -/
theorem encode_encByte_eq (b : Byte) : encode (.encByte b) = BitVec.ofNat 32 (0x01000000 + b.toNat) :=
  ofNat_or_setWidth 0x10000 b

/-- The word of DEC_SYM as a number (R80). -/
theorem encode_decSym_eq (c : CodePoint) : encode (.decSym c) = BitVec.ofNat 32 (0x10000000 + c.toNat) :=
  ofNat_or_setWidth 0x80 c

end Sys2Proof

namespace Sys2Proof.Machine.Asm

/-- A statement with every operand in range assembles to its words. -/
theorem assemble_ok (T : Tables) {st : Stmt} (h : st.wellFormed = true) : assemble T st = .ok (st.words T) := if_pos h

/-- A statement with an operand out of range is an assembly error. -/
theorem assemble_error (T : Tables) {st : Stmt} (h : st.wellFormed = false) : assemble T st = .error .operandRange :=
  if_neg (by simp [h])

/-- Statements assembled one after another: each to its words, or an error when one of them has an operand out of range. -/
theorem mapM_assemble (T : Tables) (sts : List Stmt) :
    sts.mapM (assemble T) =
      if sts.all Stmt.wellFormed then .ok (sts.map (Stmt.words T)) else .error .operandRange := by
  induction sts with
  | nil => rfl
  | cons st sts ih =>
    rw [List.mapM_cons, ih, List.all_cons]
    cases hst : st.wellFormed with
    | false => rw [assemble_error T hst]; rfl
    | true =>
      rw [assemble_ok T hst]
      cases hsts : sts.all Stmt.wellFormed <;> rfl

/-- A statement assembles as others do one after another when its operands are in range exactly when theirs are and its
words are theirs in order. -/
theorem assemble_eq_expansion (T : Tables) {st : Stmt} {sts : List Stmt}
    (hrange : sts.all Stmt.wellFormed = st.wellFormed) (hwords : sts.flatMap (Stmt.words T) = st.words T) :
    assemble T st = (sts.mapM (assemble T)).map List.flatten := by
  rw [mapM_assemble, hrange, assemble]
  cases st.wellFormed with
  | false => rfl
  | true => exact congrArg Except.ok hwords.symm

/-- The range of ENC_BYTE's operand is that of its type. -/
theorem imm8Ok_toNat (b : Byte) : imm8Ok b.toNat = true := decide_eq_true (by omega)

/-- The range of DEC_SYM's operand is that of its type. -/
theorem num_toNat_wellFormed (c : CodePoint) : (CpOperand.num c.toNat).wellFormed = true := decide_eq_true (by omega)

/-- The word of a byte in range. -/
theorem encByteWord_toNat (b : Byte) : encByteWord b.toNat = encode (.encByte b) := by
  rw [encByteWord, BitVec.ofNat_toNat, BitVec.setWidth_eq]

/-- The word of a code point in range. -/
theorem decSymWord_num_toNat (T : Tables) (c : CodePoint) : decSymWord T (.num c.toNat) = encode (.decSym c) := by
  rw [decSymWord, CpOperand.resolve, BitVec.ofNat_toNat, BitVec.setWidth_eq]

/-- Settles O55: a pseudo-instruction has its expansion's operands and its expansion's words. -/
theorem pseudoInstructionsExpandToCalls : Obligations.PseudoInstructionsExpandToCalls := by
  refine ⟨fun T ns => assemble_eq_expansion T ?_ ?_, fun T os => assemble_eq_expansion T ?_ ?_, fun T bytes => ?_,
    fun T cps => ?_⟩
  · simp [Stmt.wellFormed, Function.comp_def]
  · simp [Stmt.words, List.flatMap_map, ← List.map_eq_flatMap]
  · simp [Stmt.wellFormed, Function.comp_def]
  · simp [Stmt.words, List.flatMap_map, ← List.map_eq_flatMap]
  · rw [assemble_ok T (by simp [Stmt.wellFormed, imm8Ok_toNat])]
    simp [Stmt.words, encodeCommands, encByteWord_toNat]
  · rw [assemble_ok T (by simp [Stmt.wellFormed, num_toNat_wellFormed])]
    simp [Stmt.words, decodeCommands, decSymWord_num_toNat]

/-- `enc.byte n` with `n` in range. -/
theorem encByteWord_eq {n : Nat} (h : n ≤ 255) : encByteWord n = BitVec.ofNat 32 (0x01000000 + n) := by
  rw [encByteWord, encode_encByte_eq, BitVec.toNat_ofNat, Nat.mod_eq_of_lt (by omega)]

/-- `dec.sym` of any operand is DEC_SYM of the code point it is resolved to. -/
theorem decSymWord_eq (T : Tables) (o : CpOperand) :
    decSymWord T o = BitVec.ofNat 32 (0x10000000 + (o.resolve T).toNat) := encode_decSym_eq _

/-- A number in range is its own code point. -/
theorem resolve_num_toNat (T : Tables) {n : Nat} (h : n ≤ 0x1FFFFF) : ((CpOperand.num n).resolve T).toNat = n :=
  Nat.mod_eq_of_lt (by omega)

/-- `dec.sym` of an operand in range. -/
theorem assemble_decSym_ok (T : Tables) {o : CpOperand} (h : o.wellFormed = true) :
    assemble T (.decSym o) = .ok [BitVec.ofNat 32 (0x10000000 + (o.resolve T).toNat)] := by
  rw [assemble_ok T (st := .decSym o) h, Stmt.words, decSymWord_eq]

/-- Settles O56: the ranges are those the statements are checked against, the words those of the resolved operands. -/
theorem operandsAssembleInRangeOnly : Obligations.OperandsAssembleInRangeOnly := fun T n => by
  refine ⟨fun h => ?_, fun h => assemble_error T (decide_eq_false (by omega)), fun h => ?_,
    fun h => assemble_error T (decide_eq_false (by omega)), fun h => assemble_decSym_ok T (decide_eq_true h),
    fun h => assemble_error T (decide_eq_false (by omega)), fun h => assemble_decSym_ok T (decide_eq_true h),
    fun h => assemble_error T (decide_eq_false (by omega))⟩
  · rw [assemble_ok T (st := .encByte n) (decide_eq_true h), Stmt.words, encByteWord_eq h]
  · rw [assemble_decSym_ok T (o := .num n) (decide_eq_true h), resolve_num_toNat T h]

end Sys2Proof.Machine.Asm
end

section
/-! Calls begun in an engine's initial state, their tokens, and the results the host reads off them (spec/30_encoding.md R77,
R78; spec/70_reset_and_hazards.md R211). A call's commands are local to its engine, so the call appends its own tokens and
leaves the engine as it was. -/

namespace Sys2Proof.Machine

/-! Commands one after another. -/

@[simp] theorem State.appendE_appendE (s : State) (es es' : List EncToken) :
    (s.appendE es).appendE es' = s.appendE (es ++ es') := by simp [State.appendE]

/-- The commands of two lists. -/
theorem applyCommands_append (T : Tables) (is is' : List Instr) (s : State) :
    applyCommands T (is ++ is') s = applyCommands T is' (applyCommands T is s) := List.foldl_append

/-- One local encoder operation after another. -/
theorem EncLocalAt.comp {f g : State → State} {u : State} (hf : EncLocalAt f u) (hg : ∀ v, EncLocalAt g v) :
    EncLocalAt (fun s => g (f s)) u := by
  obtain ⟨v, es, hv⟩ := hf
  obtain ⟨w, es', hw⟩ := hg v
  refine ⟨w, es ++ es', fun s => ?_⟩
  calc g (f (s.withEncoderOf u))
      = g ((s.appendE es).withEncoderOf v) := congrArg g (hv s)
    _ = ((s.appendE es).withEncoderOf w).appendE es' := hw _
    _ = (s.withEncoderOf w).appendE (es ++ es') := (s.withEncoderOf w).appendE_appendE es es'

/-- Commands of the encoder are local to it (spec/10_state.md R31). -/
theorem encLocalAt_applyCommands (T : Tables) (is : List Instr) (his : ∀ i ∈ is, isEncCommand i = true) (u : State) :
    EncLocalAt (applyCommands T is) u := by
  induction is generalizing u with
  | nil => exact ⟨u, [], fun _ => (State.appendE_nil _).symm⟩
  | cons i is ih =>
    obtain ⟨hi, his⟩ := List.forall_mem_cons.1 his
    exact (encLocalAt_effectWith T hi u).comp (ih his)

/-- Commands of the decoder are local to it (R31). -/
theorem decLocalAt_applyCommands (T : Tables) (is : List Instr) (his : ∀ i ∈ is, isEncCommand i = false) (u : State) :
    DecLocalAt (applyCommands T is) u := by
  induction is generalizing u with
  | nil => exact decLocalAt_id u
  | cons i is ih =>
    obtain ⟨hi, his⟩ := List.forall_mem_cons.1 his
    exact (decLocalAt_effectWith T hi u).comp (ih his)

/-! One call. -/

/-- `ENC_INIT` is one setting of the encoder's registers (spec/10_state.md R38). -/
theorem State.withEncoderOf_of_atInit {s v : State} (hs : s.EncAtInit) (hv : v.EncAtInit) : s.withEncoderOf v = s := by
  cases s; cases v
  obtain ⟨rfl, rfl⟩ := hs
  obtain ⟨rfl, rfl⟩ := hv
  rfl

/-- `DEC_INIT` is one setting of the decoder's registers (R38). -/
theorem State.withDecoderOf_of_atInit {s v : State} (hs : s.DecAtInit) (hv : v.DecAtInit) : s.withDecoderOf v = s := by
  cases s; cases v
  obtain ⟨rfl, rfl, rfl, rfl, rfl, rfl, rfl, rfl, rfl⟩ := hs
  obtain ⟨rfl, rfl, rfl, rfl, rfl, rfl, rfl, rfl, rfl⟩ := hv
  rfl

/-- A local operation that leads from `ENC_INIT` to `ENC_INIT` appends what it appends at reset and does nothing else. -/
theorem EncLocalAt.from_init {f : State → State} (hf : EncLocalAt f State.reset) (hend : (f State.reset).EncAtInit)
    {s : State} (h : s.EncAtInit) : f s = s.appendE (f State.reset).enc_out := by
  obtain ⟨v, es, hv⟩ := hf
  have hreset : f State.reset = (State.reset.withEncoderOf v).appendE es := hv State.reset
  rw [hreset] at hend ⊢
  have hinit : v.EncAtInit := hend
  calc f s = f (s.withEncoderOf State.reset) := by rw [State.withEncoderOf_of_atInit h ⟨rfl, rfl⟩]
    _ = (s.withEncoderOf v).appendE es := hv s
    _ = s.appendE es := by rw [State.withEncoderOf_of_atInit h hinit]

/-- A local operation that leads from `DEC_INIT` to `DEC_INIT` appends what it appends at reset and does nothing else. -/
theorem DecLocalAt.from_init {f : State → State} (hf : DecLocalAt f State.reset) (hend : (f State.reset).DecAtInit)
    {s : State} (h : s.DecAtInit) : f s = s.appendD (f State.reset).dec_out := by
  obtain ⟨v, ds, hv⟩ := hf
  have hreset : f State.reset = (State.reset.withDecoderOf v).appendD ds := hv State.reset
  rw [hreset] at hend ⊢
  have hinit : v.DecAtInit := hend
  calc f s = f (s.withDecoderOf State.reset) := by
        rw [State.withDecoderOf_of_atInit h ⟨rfl, rfl, rfl, rfl, rfl, rfl, rfl, rfl, rfl⟩]
    _ = (s.withDecoderOf v).appendD ds := hv s
    _ = s.appendD ds := by rw [State.withDecoderOf_of_atInit h hinit]

/-- ENC_END leads to `ENC_INIT` from every state (spec/40_encoder.md R101). -/
theorem encEndEffect_atInit (T : Tables) (s : State) : (encEndEffect T s).EncAtInit := by
  rcases encEndEffect_cases T s with ⟨-, h⟩ | ⟨-, -, h⟩ | ⟨-, h⟩
  all_goals rw [h]; exact ⟨rfl, rfl⟩

/-- The end of a decode call leads to `DEC_INIT` from every state (spec/41_decoder.md R132). -/
theorem endDecodeCall_atInit (s : State) : (endDecodeCall s).DecAtInit := ⟨rfl, rfl, rfl, rfl, rfl, rfl, rfl, rfl, rfl⟩

/-- DEC_END leads to `DEC_INIT` from every state (R132). -/
theorem decEndEffect_atInit (T : Tables) (s : State) : (decEndEffect T s).DecAtInit := by
  rcases decEndEffect_cases T s with ⟨-, h⟩ | ⟨-, -, h⟩ | ⟨-, -, h⟩
  all_goals rw [h]; exact endDecodeCall_atInit _

/-- The commands of an encode call are the encoder's. -/
theorem isEncCommand_of_mem_encodeCommands {bytes : List Byte} {i : Instr} (h : i ∈ encodeCommands bytes) :
    isEncCommand i = true := by
  rcases List.mem_append.1 h with h | h
  · obtain ⟨b, -, rfl⟩ := List.mem_map.1 h; rfl
  · obtain rfl := List.mem_singleton.1 h; rfl

/-- The commands of a decode call are the decoder's. -/
theorem isEncCommand_of_mem_decodeCommands {cps : List CodePoint} {i : Instr} (h : i ∈ decodeCommands cps) :
    isEncCommand i = false := by
  rcases List.mem_append.1 h with h | h
  · obtain ⟨c, -, rfl⟩ := List.mem_map.1 h; rfl
  · obtain rfl := List.mem_singleton.1 h; rfl

/-- An encode call begun in `ENC_INIT` appends its tokens and changes nothing else (spec/40_encoder.md R104). -/
theorem applyCommands_encodeCommands (T : Tables) (bytes : List Byte) {s : State} (h : s.EncAtInit) :
    applyCommands T (encodeCommands bytes) s = s.appendE (encodeTokens T bytes) := by
  refine (encLocalAt_applyCommands T _ (fun _ => isEncCommand_of_mem_encodeCommands) _).from_init ?_ h
  rw [encodeCommands, applyCommands_append]
  exact encEndEffect_atInit T _

/-- A decode call begun in `DEC_INIT` appends its tokens and changes nothing else (spec/41_decoder.md R139). -/
theorem applyCommands_decodeCommands (T : Tables) (cps : List CodePoint) {s : State} (h : s.DecAtInit) :
    applyCommands T (decodeCommands cps) s = s.appendD (decodeCall T cps) := by
  refine (decLocalAt_applyCommands T _ (fun _ => isEncCommand_of_mem_decodeCommands) _).from_init ?_ h
  rw [decodeCommands, applyCommands_append]
  exact decEndEffect_atInit T _

/-! The tokens of one call. -/

/-- An encode call's tokens are its symbols and EncDone (spec/30_encoding.md R77). -/
theorem encodeTokens_eq (T : Tables) (bytes : List Byte) :
    encodeTokens T bytes = (encodeCall T bytes).map EncToken.sym ++ [.encDone] := by
  have hout := encodeCommands_enc_out T bytes (Reference.bitStream bytes).length State.reset []
    (State.EncAtInit.buffers_nil ⟨rfl, rfl⟩) le_rfl
  rw [encodeCall, encodeTokens, hout]
  exact congrArg (fun cps => cps.map EncToken.sym ++ [.encDone]) (symsOf_map_sym_encDone _).symm

/-- PROCESS appends bytes to the stream, and no other token. -/
theorem process_appends_bytes (T : Tables) (c : CodePoint) (i : Pos) (last : Bool) (s : State) :
    ∃ bs : List Byte, (process T c i last s).dec_out = s.dec_out ++ bs.map DecToken.byte := by
  rcases process_cases T c i last s with ⟨code, -, h⟩ | ⟨k, v, bs, -, ⟨-, h⟩ | ⟨-, a, r, h⟩⟩
  · exact ⟨[], by rw [h]; simp⟩
  · exact ⟨bs, by rw [h]; rfl⟩
  · exact ⟨bs, by rw [h]; rfl⟩

/-- DEC_END appends bytes and DecDone (spec/30_encoding.md R78). -/
theorem decEndEffect_appends (T : Tables) (s : State) :
    ∃ (bs : List Byte) (st : Status), (decEndEffect T s).dec_out = s.dec_out ++ (bs.map DecToken.byte ++ [.decDone st]) := by
  rcases decEndEffect_cases T s with ⟨-, h⟩ | ⟨-, -, h⟩ | ⟨-, -, h⟩
  · exact ⟨[], callStatus s, by rw [h]; simp⟩
  · exact ⟨[], callStatus s, by rw [h]; simp⟩
  · obtain ⟨bs, hout⟩ := process_appends_bytes T s.d_pend_cp (pendPos s) true s
    exact ⟨bs, _, by rw [h, endDecodeCall_dec_out, hout, List.append_assoc]⟩

/-- The rest of a decode call appends bytes and DecDone, from every state. -/
theorem decodeCommands_appends (T : Tables) (cps : List CodePoint) (s : State) :
    ∃ (bs : List Byte) (st : Status), (applyCommands T (decodeCommands cps) s).dec_out =
      s.dec_out ++ (bs.map DecToken.byte ++ [.decDone st]) := by
  induction cps generalizing s with
  | nil => exact decEndEffect_appends T s
  | cons c cps ih =>
    obtain ⟨bs, hfirst, -⟩ := decSymEffect_bytes T c s
    obtain ⟨bs', st, hrest⟩ := ih (decSymEffect T c s)
    exact ⟨bs ++ bs', st, hrest.trans (by rw [hfirst]; simp)⟩

/-- A decode call's tokens are bytes and its DecDone (R78). -/
theorem decodeCall_eq (T : Tables) (cps : List CodePoint) :
    ∃ (bs : List Byte) (st : Status), decodeCall T cps = bs.map DecToken.byte ++ [.decDone st] :=
  decodeCommands_appends T cps State.reset

/-! Calls one after another. -/

/-- Encode calls one after another append their tokens in order. -/
theorem applyCommands_encodeCalls (T : Tables) (calls : List (List Byte)) {s : State} (h : s.EncAtInit) :
    applyCommands T (calls.flatMap encodeCommands) s = s.appendE (calls.flatMap (encodeTokens T)) := by
  induction calls generalizing s with
  | nil => exact (State.appendE_nil s).symm
  | cons bytes calls ih =>
    have hnext : (s.appendE (encodeTokens T bytes)).EncAtInit := h
    rw [List.flatMap_cons, List.flatMap_cons, applyCommands_append, applyCommands_encodeCommands T bytes h, ih hnext,
      State.appendE_appendE]

/-- Decode calls one after another append their tokens in order. -/
theorem applyCommands_decodeCalls (T : Tables) (calls : List (List CodePoint)) {s : State} (h : s.DecAtInit) :
    applyCommands T (calls.flatMap decodeCommands) s = s.appendD (calls.flatMap (decodeCall T)) := by
  induction calls generalizing s with
  | nil => exact (State.appendD_nil s).symm
  | cons cps calls ih =>
    have hnext : (s.appendD (decodeCall T cps)).DecAtInit := h
    rw [List.flatMap_cons, List.flatMap_cons, applyCommands_append, applyCommands_decodeCommands T cps h, ih hnext,
      State.appendD_appendD]

/-! The reading of results. -/

/-- Symbols and their EncDone are one result; what follows is read afresh (R77). -/
theorem encResultsFrom_call (acc cps : List CodePoint) (ts : List (Seen EncToken)) :
    encResultsFrom acc ((cps.map EncToken.sym ++ [EncToken.encDone]).map Seen.token ++ ts) =
      (acc ++ cps) :: encResultsFrom [] ts := by
  induction cps generalizing acc with
  | nil => simp
  | cons cp cps ih => exact (ih (acc ++ [cp])).trans (by simp)

/-- Bytes and their DecDone are one result; what follows is read afresh (R78). -/
theorem decResultsFrom_call (acc bs : List Byte) (st : Status) (ts : List (Seen DecToken)) :
    decResultsFrom acc ((bs.map DecToken.byte ++ [DecToken.decDone st]).map Seen.token ++ ts) =
      decResultOf (acc ++ bs) st :: decResultsFrom [] ts := by
  induction bs generalizing acc with
  | nil => simp
  | cons b bs ih => exact (ih (acc ++ [b])).trans (by simp)

/-- The results of encode calls are their strings, in order. -/
theorem encResults_encodeCalls (T : Tables) (calls : List (List Byte)) :
    encResults ((calls.flatMap (encodeTokens T)).map Seen.token) = calls.map (encodeCall T) := by
  induction calls with
  | nil => rfl
  | cons bytes calls ih =>
    rw [List.flatMap_cons, List.map_append, encodeTokens_eq, encResults, encResultsFrom_call, List.nil_append,
      ← encResults, ih, List.map_cons]

/-- A decode call has one result, and the results of what follows do not depend on it. -/
theorem decResults_decodeCall (T : Tables) (cps : List CodePoint) (ts : List (Seen DecToken)) :
    ∃ r, decResults ((decodeCall T cps).map Seen.token) = [r] ∧
      decResults ((decodeCall T cps).map Seen.token ++ ts) = r :: decResults ts := by
  obtain ⟨bs, st, h⟩ := decodeCall_eq T cps
  rw [h]
  refine ⟨decResultOf bs st, ?_, decResultsFrom_call [] bs st ts⟩
  simpa [decResults] using decResultsFrom_call [] bs st []

/-- The results of decode calls are those of each call alone, in order, one for each. -/
theorem decResults_decodeCalls (T : Tables) (calls : List (List CodePoint)) :
    decResults ((calls.flatMap (decodeCall T)).map Seen.token) =
        calls.flatMap (fun c => decResults ((decodeCall T c).map Seen.token)) ∧
      (decResults ((calls.flatMap (decodeCall T)).map Seen.token)).length = calls.length := by
  induction calls with
  | nil => exact ⟨rfl, rfl⟩
  | cons cps calls ih =>
    obtain ⟨hresults, hlength⟩ := ih
    obtain ⟨r, halone, hcall⟩ := decResults_decodeCall T cps ((calls.flatMap (decodeCall T)).map Seen.token)
    rw [List.flatMap_cons, List.flatMap_cons, List.map_append, hcall, halone, ← hresults]
    exact ⟨rfl, congrArg (· + 1) hlength⟩

/-! The run of the calls' words. -/

/-- A run of commands' words has the effects of the commands. -/
theorem runEvents_commandEvents (T : Tables) (is : List Instr) (s : State) :
    runEvents T (is.map commandEvent) s = applyCommands T is s := by
  induction is generalizing s with
  | nil => rfl
  | cons i is ih =>
    exact (congrArg (runEvents T (is.map commandEvent)) (eventEffect_of_legal T s (decode_encode i))).trans (ih _)

/-- A record of a run with no reset in it is its tokens. -/
theorem map_token_seenTokens {α : Type} {ts : List (Seen α)} (h : Seen.reset ∉ ts) :
    (seenTokens ts).map Seen.token = ts := by
  induction ts with
  | nil => rfl
  | cons t ts ih =>
    obtain ⟨hne, hrest⟩ := not_or.1 (mt List.mem_cons.2 h)
    cases t with
    | reset => exact absurd rfl hne
    | token t => exact congrArg (Seen.token t :: ·) (ih hrest)

/-- In a run of commands' words the host meets the tokens the commands append, and nothing else. -/
theorem runSeen_commandEvents {α : Type} [DecidableEq α] {out : State → List α} {T : Tables} {is : List Instr} {s : State}
    {ts : List α} (hstream : ∀ es, out (runEvents T es s) = out s ++ seenTokens (runSeen out T es s))
    (happend : out (applyCommands T is s) = out s ++ ts) :
    runSeen out T (is.map commandEvent) s = ts.map Seen.token := by
  have htokens : seenTokens (runSeen out T (is.map commandEvent) s) = ts := by
    rw [← runEvents_commandEvents, hstream] at happend
    exact List.append_cancel_left happend
  have hreset : Seen.reset ∉ runSeen out T (is.map commandEvent) s := by
    rw [← List.count_eq_zero, runSeen_count_reset, List.count_eq_zero]
    simp [commandEvent]
  rw [← htokens, map_token_seenTokens hreset]

/-- Settles O41: the calls append their tokens in order, and the run of their words shows those tokens. -/
theorem resultsAreReadOffTheStreams : Obligations.ResultsAreReadOffTheStreams := by
  refine ⟨fun T calls s h => ?_, fun T calls s h => ?_⟩
  · have hout := congrArg State.enc_out (applyCommands_encodeCalls T calls h)
    have hstream := fun es => runEvents_stream (fun w => eventEffect_enc_out_append T (.word w)) applyReset_enc_out es s
    have hseen := runSeen_commandEvents hstream hout
    have hresults := encResults_encodeCalls T calls
    exact ⟨⟨_, hout, hresults⟩, (congrArg encResults hseen).trans hresults⟩
  · have hout := congrArg State.dec_out (applyCommands_decodeCalls T calls h)
    have hstream := fun es => runEvents_stream (fun w => eventEffect_dec_out_append T (.word w)) applyReset_dec_out es s
    have hseen := runSeen_commandEvents hstream hout
    obtain ⟨hresults, hlength⟩ := decResults_decodeCalls T calls
    exact ⟨⟨_, hout, hresults, hlength⟩, (congrArg decResults hseen).trans hresults⟩

end Sys2Proof.Machine
end

section
/-! Legal states (spec/40_encoder.md R102, spec/41_decoder.md R133 to R135): the invariant is a condition on the
encoder's registers and one on the decoder's, and a host event changes one engine's registers or brings both engines to
their initial states. -/

namespace Sys2Proof.Machine

/-! The encoder's registers. -/

/-- The low bits of `e_stage` that `e_rem` counts are all of it exactly when the registers hold some bits. -/
theorem State.encLegal_iff_buffers (s : State) : s.EncLegal ↔ ∃ buf, s.Buffers buf := by
  constructor
  · intro h
    exact ⟨(List.range s.e_rem.val).reverse.map s.e_stage.toNat.testBit, by simp,
      by rw [Reference.bitsValue_testBits, Nat.mod_eq_of_lt h]⟩
  · rintro ⟨buf, hlen, hval⟩
    have hlt := Reference.bitsValue_lt buf
    rwa [hlen, hval] at hlt

/-- `ENC_INIT` is legal. -/
theorem State.EncAtInit.encLegal {s : State} (h : s.EncAtInit) : s.EncLegal :=
  s.encLegal_iff_buffers.2 ⟨[], h.buffers_nil⟩

/-- States that agree on the encoder are legal encoder states together. -/
theorem State.EncLegal.of_same {s t : State} (h : s.EncLegal) (hsame : s.SameEncoder t) : t.EncLegal := by
  obtain ⟨hstage, hrem, -⟩ := hsame
  rwa [State.EncLegal, hstage, hrem]

/-- ENC_BYTE keeps the encoder legal: it buffers the byte's bits, or those the completed group leaves over (R102). -/
theorem encByteEffect_encLegal (T : Tables) (b : Byte) {s : State} (h : s.EncLegal) :
    (encByteEffect T b s).EncLegal := by
  obtain ⟨buf, hbuf⟩ := s.encLegal_iff_buffers.1 h
  rw [State.encLegal_iff_buffers]
  rcases Nat.lt_or_ge s.e_rem.val 3 with hrem | hrem
  · obtain ⟨hbuf', -⟩ := encByteEffect_buffers_fold T b hbuf (Nat.le_of_lt_succ hrem)
    exact ⟨_, hbuf'⟩
  · obtain ⟨hbuf', -⟩ := encByteEffect_buffers_emit T b hbuf hrem
    exact ⟨_, hbuf'⟩

/-- Every command keeps the encoder legal (R102). -/
theorem effectWith_encLegal (T : Tables) (i : Instr) {s : State} (h : s.EncLegal) : (effectWith T i s).EncLegal := by
  cases i with
  | encByte b => exact encByteEffect_encLegal T b h
  | encEnd => exact (encEndEffect_atInit T s).encLegal
  | decSym c => exact h.of_same (decCommand_keeps_encoder T rfl s)
  | decEnd => exact h.of_same (decCommand_keeps_encoder T rfl s)

/-! The decoder's registers. -/

/-- The invariant's condition on the decoder's registers. -/
def State.DecInv (s : State) : Prop :=
  s.DecLegal ∧ s.RemFollowsResidue ∧ s.ResidueFollowsCount ∧ s.EmptyMeansFirst ∧ s.IdleMeansInit ∧ s.LatchLegal

/-- The invariant is the two engines' conditions. -/
theorem State.inv_iff (s : State) : s.Inv ↔ s.EncLegal ∧ s.DecInv := Iff.rfl

/-- The decoder's condition reads the decoder's registers only. -/
theorem State.DecInv.withDecoderOf {v : State} (h : v.DecInv) (s : State) : (s.withDecoderOf v).DecInv := by
  obtain ⟨hlegal, hrem, hcount, hempty, hidle, hlatch⟩ := h
  exact ⟨hlegal, hrem, hcount, hempty, fun hp => congrArg s.withDecoderOf (hidle hp), hlatch⟩

/-- States that agree on the decoder meet the decoder's condition together. -/
theorem State.DecInv.of_same {s t : State} (h : s.DecInv) (hsame : s.SameDecoder t) : t.DecInv := by
  rw [← State.withDecoderOf_of_same hsame]
  exact h.withDecoderOf t

/-- `DEC_INIT` meets the decoder's condition, as the reset state does. -/
theorem State.DecAtInit.decInv {s : State} (h : s.DecAtInit) : s.DecInv := by
  obtain ⟨-, hreset⟩ := State.reset.inv_iff.1 resetStateIsLegal
  obtain ⟨-, hinit, -⟩ := resetStateHoldsTheResetValues
  rw [← State.withDecoderOf_of_atInit h hinit]
  exact hreset.withDecoderOf s

/-- Bringing the decoder to `DEC_INIT` changes nothing only in `DEC_INIT` (spec/10_state.md R38). -/
theorem State.decAtInit_of_decInit_eq {s : State} (h : s.decInit = s) : s.DecAtInit := by
  rw [← h]
  exact ⟨rfl, rfl, rfl, rfl, rfl, rfl, rfl, rfl, rfl⟩

/-- Holding a symbol puts its position at the count before it. -/
@[simp] theorem pendPos_holdPending (s : State) (c : CodePoint) : pendPos (s.holdPending c) = s.d_count :=
  BitVec.add_sub_cancel _ _

/-- A symbol is held legally when the registers before it are those of `d_count` processed symbols and no error is
latched. -/
theorem State.holdPending_decInv {s : State} (c : CodePoint) (hlegal : s.DecLegal) (hrem : s.RemFollowsResidue)
    (hcount : s.d_residue.val = 3 * s.d_count.toNat % 8) (hempty : s.d_rem.val = 0 → s.d_count = 0#32)
    (herr : s.d_err = none) (hclear : s.d_err_pos = 0#32 ∧ s.d_err_cp = 0#21) : (s.holdPending c).DecInv := by
  have hlatch : (s.holdPending c).LatchLegal :=
    ⟨fun _ => hclear, fun he => absurd herr he, by simp [herr], by simp [herr]⟩
  refine ⟨hlegal, hrem, fun _ => ?_, fun h0 => ?_, nofun, hlatch⟩
  · rwa [pendPos_holdPending]
  · rw [State.holdPending_d_count, hempty h0]; decide

/-- The first symbol of a call is held in a legal state. -/
theorem State.DecAtInit.holdPending_decInv {s : State} (h : s.DecAtInit) (c : CodePoint) :
    (s.holdPending c).DecInv := by
  obtain ⟨hlegal, hrem, -⟩ := h.decInv
  obtain ⟨-, -, hresidue, -, -, hcount, herr, hpos, hcp⟩ := h
  exact State.holdPending_decInv c hlegal hrem (by rw [hresidue, hcount]; rfl) (fun _ => hcount) herr ⟨hpos, hcp⟩

/-- A symbol that is not last fails with code 1 or 2, or supplies its 11-bit value (spec/60_exceptions.md R171). -/
theorem checkSymbol_notLast_cases (T : Tables) (c : CodePoint) (res : Fin 8) (rem : Fin 9) :
    checkSymbol T c false res rem = .error .invalidCharacter ∨
      checkSymbol T c false res rem = .error .unexpectedAfterTerminator ∨
      ∃ v : SymValue, checkSymbol T c false res rem = .ok (11, v.toNat) := by
  rcases checkSymbol_cases T c false res rem with ⟨-, h⟩ | ⟨-, v, -, h⟩ | ⟨-, -, -, h⟩ | ⟨-, -, hl, -⟩ |
    ⟨-, -, hl, -⟩ | ⟨-, -, hl, -⟩
  · exact .inl h
  · exact .inr (.inr ⟨v, h⟩)
  · exact .inr (.inl h)
  all_goals cases hl

/-- Latching the error of a pending symbol that is not last keeps the state legal. -/
theorem State.DecInv.raise {s : State} (h : s.DecInv) (hp : s.d_pend_valid = true) {T : Tables} {code : ErrCode}
    (hc : checkSymbol T s.d_pend_cp false (nextResidue s.d_residue) s.d_rem = .error code) :
    (raiseDecodeError s code (pendPos s) s.d_pend_cp).DecInv := by
  obtain ⟨hlegal, hrem, hcount, hempty, -, -⟩ := h
  have hcode : code ≠ .invalidTerminationCharacter ∧ code ≠ .invalidTailCharacter := by
    rcases checkSymbol_notLast_cases T s.d_pend_cp (nextResidue s.d_residue) s.d_rem with he | he | ⟨v, he⟩
    all_goals rw [he] at hc; cases hc
    all_goals decide
  obtain ⟨h3, h4⟩ := hcode
  have hidle : (raiseDecodeError s code (pendPos s) s.d_pend_cp).IdleMeansInit := fun hidle => by
    rw [raiseDecodeError_d_pend_valid, hp] at hidle; cases hidle
  exact ⟨hlegal, hrem, hcount, hempty, hidle, nofun, fun _ => ⟨hp, rfl, rfl⟩, mt Option.some.inj h3,
    mt Option.some.inj h4⟩

/-- The bits merged from a legal state and a value of `k` bits fit their count (spec/41_decoder.md R134). -/
theorem merge_lt {s : State} (h : s.DecLegal) {k v : Nat} (hv : v < 2 ^ k) :
    merge s.d_stage k v < 2 ^ (s.d_rem.val + k) := by
  have hmul : (s.d_stage.toNat + 1) * 2 ^ k ≤ 2 ^ s.d_rem.val * 2 ^ k := Nat.mul_le_mul_right _ h
  rw [merge_eq _ hv, pow_add]
  linarith [Nat.succ_mul s.d_stage.toNat (2 ^ k)]

/-- One more symbol counted is one more in the residue, through the wrap of `d_count` (R133). -/
theorem nextResidue_of_count {s : State} (h : s.d_residue.val = 3 * (pendPos s).toNat % 8) :
    (nextResidue s.d_residue).val = 3 * s.d_count.toNat % 8 := by
  have hpos : (pendPos s).toNat = (s.d_count.toNat + (2 ^ 32 - 1)) % 2 ^ 32 := by
    rw [pendPos, BitVec.toNat_sub, Nat.add_comm]; rfl
  rw [nextResidue_val, h, hpos]
  omega

/-- A pending symbol that passes as not last, with the next one held after it, leads from a legal state to a legal one:
what the loop leaves fits its count, which is not 0, and the count and the residue both grow by 11 bits (R133, R134). -/
theorem State.DecInv.pass {s : State} (h : s.DecInv) (herr : s.d_err = none) (hp : s.d_pend_valid = true) {T : Tables}
    {k v : Nat} (hc : checkSymbol T s.d_pend_cp false (nextResidue s.d_residue) s.d_rem = .ok (k, v)) (c : CodePoint) :
    ((process T s.d_pend_cp (pendPos s) false s).holdPending c).DecInv := by
  obtain ⟨hlegal, hrem, hcount, -, -, hclear, -⟩ := h
  obtain ⟨rfl, hv⟩ : k = 11 ∧ v < 2 ^ 11 := by
    rcases checkSymbol_notLast_cases T s.d_pend_cp (nextResidue s.d_residue) s.d_rem with he | he | ⟨v', he⟩
    all_goals rw [he] at hc; cases hc
    exact ⟨rfl, v'.isLt⟩
  obtain ⟨hfit, -⟩ := drain_value (merge_lt hlegal hv)
  obtain ⟨hle, hbits, hpos⟩ := drain_length (merge s.d_stage 11 v) (s.d_rem.val + 11)
  rw [process_ok_notLast _ hc]
  generalize drain (merge s.d_stage 11 v) (s.d_rem.val + 11) = d at hfit hle hbits hpos ⊢
  have hval : (Fin.ofNat 9 d.2.2).val = d.2.2 := Nat.mod_eq_of_lt (by omega)
  refine State.holdPending_decInv c ?_ ?_ (nextResidue_of_count (hcount hp)) (fun h0 => ?_) herr (hclear herr)
  · have h256 : (2 : Nat) ^ d.2.2 ≤ 2 ^ 8 := Nat.pow_le_pow_right (by decide) hle
    rw [State.DecLegal, State.setDec_d_stage, State.setDec_d_rem, hval, BitVec.toNat_ofNat,
      Nat.mod_eq_of_lt (hfit.trans_le h256)]
    exact hfit
  · rw [State.RemFollowsResidue] at hrem ⊢
    rw [State.setDec_d_rem, State.setDec_d_residue, hval, nextResidue_val]
    omega
  · rw [State.setDec_d_rem, hval] at h0
    omega

/-- Every command keeps the decoder's condition (R133, R134). -/
theorem effectWith_decInv (T : Tables) (i : Instr) {s : State} (h : s.DecInv) : (effectWith T i s).DecInv := by
  cases i with
  | encByte b => exact h.of_same (encCommand_keeps_decoder T rfl s)
  | encEnd => exact h.of_same (encCommand_keeps_decoder T rfl s)
  | decSym c =>
    change (decSymEffect T c s).DecInv
    rcases decSymEffect_cases T c s with ⟨-, ht⟩ | ⟨-, hp, ht⟩ | ⟨-, hp, code, hc, ht⟩ | ⟨he, hp, k, v, hc, ht⟩
    · rwa [ht]
    · obtain ⟨-, -, -, -, hidle, -⟩ := h
      rw [ht]
      exact (State.decAtInit_of_decInit_eq (hidle hp)).holdPending_decInv c
    · rw [ht]
      exact h.raise hp hc
    · rw [ht]
      exact h.pass he hp hc c
  | decEnd => exact (decEndEffect_atInit T s).decInv

/-! The step. -/

/-- Every command keeps the state legal. -/
theorem effectWith_inv (T : Tables) (i : Instr) {s : State} (h : s.Inv) : (effectWith T i s).Inv := by
  obtain ⟨henc, hdec⟩ := s.inv_iff.1 h
  exact ⟨effectWith_encLegal T i henc, effectWith_decInv T i hdec⟩

/-- The invariant reads the engines' registers only. -/
theorem State.Inv.of_same {s t : State} (h : s.Inv) (henc : s.SameEncoder t) (hdec : s.SameDecoder t) : t.Inv := by
  obtain ⟨hle, hld⟩ := s.inv_iff.1 h
  exact ⟨hle.of_same henc, hld.of_same hdec⟩

/-- A reset leads to a legal state from every state. -/
theorem applyReset_inv (s : State) : (applyReset s).Inv :=
  ⟨State.EncAtInit.encLegal ⟨rfl, rfl⟩, State.DecAtInit.decInv ⟨rfl, rfl, rfl, rfl, rfl, rfl, rfl, rfl, rfl⟩⟩

/-- Every host event keeps the state legal. -/
theorem eventEffect_inv (T : Tables) (e : HostEvent) {s : State} (h : s.Inv) : (eventEffect T e s).Inv := by
  cases e with
  | reset => exact applyReset_inv s
  | word w =>
    cases hd : decode w with
    | ok i => rw [eventEffect_of_legal T s hd]; exact effectWith_inv T i h
    | error e => rw [eventEffect_of_illegal T s hd]; exact h.of_same (.refl s) (.refl s)

/-- Settles O39: a step waits, or takes a host event from the port. -/
theorem everyStepKeepsTheStateLegal : Obligations.EveryStepKeepsTheStateLegal := fun s h => by
  cases hp : s.port with
  | nil => exact ⟨s, stepUsing_of_nil hp, h⟩
  | cons e rest =>
    have htaken : ({ s with port := rest } : State).Inv := h.of_same (.refl s) (.refl s)
    exact ⟨_, step_of_cons hp, eventEffect_inv Config.tables e htaken⟩

end Sys2Proof.Machine
end

section
/-! ENC_BYTE and ENC_END (spec/40_encoder.md R100, R101, R103) and the symbols they can emit (R107). -/

namespace Sys2Proof.Machine

/-! One command. -/

/-- An encoder command writes the encoder's two registers and its stream only. -/
theorem encCommand_frame (T : Tables) {i : Instr} (hi : isEncCommand i = true) (s : State) :
    effectWith T i s =
      { s with e_stage := (effectWith T i s).e_stage, e_rem := (effectWith T i s).e_rem,
               enc_out := (effectWith T i s).enc_out } := by
  obtain ⟨v, es, h, -⟩ := encCommand_writes T hi s
  rw [h]; rfl

/-- Settles O14: the two branches of ENC_BYTE; what each writes fits its register in a legal state. -/
theorem encByteResult : Obligations.EncByteResult := by
  refine ⟨fun _ => decode_of_encByte_row, fun b s hs => ?_⟩
  have hrem := s.e_rem.isLt
  refine ⟨_, exec_eq_effect (.encByte b) s, encCommand_frame Config.tables rfl s, fun h => ?_, fun h => ?_⟩
  · have h3 : 3 ≤ s.e_rem.val := by omega
    have hleft : 8 - (11 - s.e_rem.val) = s.e_rem.val - 3 := by omega
    have hfit : b.toNat % 2 ^ (s.e_rem.val - 3) < 2 ^ 10 := (Nat.mod_le _ _).trans_lt (b.isLt.trans (by decide))
    rw [effectWith, encByteEffect_emit Config.tables b h3]
    refine ⟨?_, ?_, _, encAddress_encIndex_toNat b hs h3, rfl⟩
    · rw [hleft]; exact Nat.mod_eq_of_lt (by omega)
    · rw [State.setEnc_e_stage, BitVec.toNat_ofNat, Nat.mod_eq_of_lt hfit, hleft, Nat.and_two_pow_sub_one_eq_mod]
  · have h2 : s.e_rem.val ≤ 2 := by omega
    have hstage : s.e_stage.toNat < 2 ^ 2 := Nat.lt_of_lt_of_le hs (Nat.pow_le_pow_right (by decide) h2)
    have hfit : s.e_stage.toNat * 2 ^ 8 + b.toNat < 2 ^ 10 := by omega
    rw [effectWith, encByteEffect_fold Config.tables b h2]
    refine ⟨Nat.mod_eq_of_lt (by omega), ?_, rfl⟩
    rw [State.setEnc_e_stage, BitVec.toNat_ofNat, Nat.mod_eq_of_lt hfit, shiftLeft_or_of_lt b.isLt]

/-- Settles O15: the three final symbols of ENC_END; `e_stage` is the index at the width of the table's port. -/
theorem encEndResult : Obligations.EncEndResult := by
  refine ⟨rfl, fun s hs => ⟨_, exec_eq_effect .encEnd s, ?_, ?_⟩⟩
  · obtain ⟨hstage, hrem⟩ := encEndEffect_atInit Config.tables s
    rw [← hstage, ← hrem]
    exact encCommand_frame Config.tables rfl s
  · rcases encEndEffect_cases Config.tables s with ⟨h, ht⟩ | ⟨h0, h3, ht⟩ | ⟨h4, ht⟩
    all_goals rw [effectWith, ht]
    · exact ⟨fun _ => rfl, by omega, by omega⟩
    · exact ⟨by omega, fun _ _ => ⟨_, e_stage_setWidth_toNat hs h3, by simp⟩, by omega⟩
    · exact ⟨by omega, by omega, fun _ => ⟨_, e_stage_setWidth_toNat hs (by omega), by simp⟩⟩

/-- Settles O18: the branches of the two commands. -/
theorem encoderEmissionCounts : Obligations.EncoderEmissionCounts := by
  refine ⟨fun b s => ⟨_, exec_eq_effect (.encByte b) s, ?_⟩, fun s => ⟨_, exec_eq_effect .encEnd s, ?_⟩⟩
  · rcases encByteEffect_cases Config.tables b s with ⟨h3, v, a, r, ht⟩ | ⟨h2, a, r, ht⟩
    · exact .inl ⟨h3, _, congrArg State.enc_out ht⟩
    · exact .inr ⟨h2, (congrArg State.enc_out ht).trans (State.setEnc_enc_out s a r)⟩
  · rw [effectWith, encEndEffect_enc_out]
    cases finalSymbol Config.tables s.e_stage s.e_rem with
    | none => exact .inr (by simp)
    | some cp => exact .inl ⟨cp, by simp⟩

/-! The symbols of a run. -/

/-- The code point is an entry of `ENC_TABLE` or of `TAIL_TABLE`. -/
def InAlphabets (T : Tables) (cp : CodePoint) : Prop :=
  (∃ v : SymValue, cp = T.enc v) ∨ ∃ j : TailIndex, cp = T.tail j

/-- From `s` to `t` only entries of the alphabets were emitted: a Sym token in the encoder's stream of `t` was in that of
`s` or carries such an entry. -/
def EmitsOnlyAlphabets (T : Tables) (s t : State) : Prop :=
  ∀ cp, EncToken.sym cp ∈ t.enc_out → EncToken.sym cp ∈ s.enc_out ∨ InAlphabets T cp

/-- Nothing emitted. -/
theorem EmitsOnlyAlphabets.of_same_out {T : Tables} {s t : State} (h : t.enc_out = s.enc_out) :
    EmitsOnlyAlphabets T s t := fun _ hcp => .inl (h ▸ hcp)

/-- One part of a run after another. -/
theorem EmitsOnlyAlphabets.trans {T : Tables} {s t u : State} (h : EmitsOnlyAlphabets T s t)
    (h' : EmitsOnlyAlphabets T t u) : EmitsOnlyAlphabets T s u := fun cp hcp => (h' cp hcp).elim (h cp) .inr

/-- Emitting an entry of an alphabet. -/
theorem EmitsOnlyAlphabets.emit_sym {T : Tables} {cp : CodePoint} (h : InAlphabets T cp) (s : State) :
    EmitsOnlyAlphabets T s (s.emitE (.sym cp)) := fun cp' hcp' => by
  rcases List.mem_append.1 hcp' with hold | hnew
  · exact .inl hold
  · obtain rfl : cp' = cp := by simpa using hnew
    exact .inr h

/-- Emitting EncDone. -/
theorem EmitsOnlyAlphabets.emit_encDone (T : Tables) (s : State) : EmitsOnlyAlphabets T s (s.emitE .encDone) :=
  fun cp hcp => .inl (by simpa using hcp)

/-- Every command emits symbols of the alphabets only; the decoder's emit none. -/
theorem effectWith_emitsOnlyAlphabets (T : Tables) (i : Instr) (s : State) :
    EmitsOnlyAlphabets T s (effectWith T i s) := by
  have hdecoder (hi : isEncCommand i = false) : EmitsOnlyAlphabets T s (effectWith T i s) := by
    obtain ⟨-, -, hout⟩ := decCommand_keeps_encoder T hi s
    exact .of_same_out hout
  cases i with
  | encByte b =>
    rcases encByteEffect_cases T b s with ⟨-, v, a, r, ht⟩ | ⟨-, a, r, ht⟩
    · rw [effectWith, ht]; exact .emit_sym (.inl ⟨v, rfl⟩) s
    · rw [effectWith, ht]; exact .of_same_out rfl
  | encEnd =>
    rcases encEndEffect_cases T s with ⟨-, ht⟩ | ⟨-, -, ht⟩ | ⟨-, ht⟩
    · rw [effectWith, ht]; exact .emit_encDone T s
    · rw [effectWith, ht]; exact .trans (.emit_sym (.inr ⟨_, rfl⟩) s) (.emit_encDone T _)
    · rw [effectWith, ht]; exact .trans (.emit_sym (.inl ⟨_, rfl⟩) s) (.emit_encDone T _)
  | decSym c => exact hdecoder rfl
  | decEnd => exact hdecoder rfl

/-- Every host event emits symbols of the alphabets only. -/
theorem eventEffect_emitsOnlyAlphabets (T : Tables) (e : HostEvent) (s : State) :
    EmitsOnlyAlphabets T s (eventEffect T e s) := by
  cases e with
  | reset => exact .of_same_out rfl
  | word w =>
    cases hd : decode w with
    | ok i => rw [eventEffect_of_legal T s hd]; exact effectWith_emitsOnlyAlphabets T i s
    | error e => rw [eventEffect_of_illegal T s hd]; exact .of_same_out rfl

/-- Every run emits symbols of the alphabets only. -/
theorem runEvents_emitsOnlyAlphabets (T : Tables) (es : List HostEvent) (s : State) :
    EmitsOnlyAlphabets T s (runEvents T es s) := by
  induction es generalizing s with
  | nil => exact .of_same_out rfl
  | cons e es ih => exact (eventEffect_emitsOnlyAlphabets T e s).trans (ih _)

/-- Settles O19, by induction on the events. -/
theorem encoderEmitsOnlyTheAlphabets : Obligations.EncoderEmitsOnlyTheAlphabets := fun T es s cp =>
  runEvents_emitsOnlyAlphabets T es s cp

end Sys2Proof.Machine
end

section
/-! Encode and decode calls as a whole (spec/40_encoder.md R104 to R106, spec/41_decoder.md R139): a call depends on its
operands alone, the source's other branch condition gives the same string, and a buffer's length fixes its string's. -/

namespace Sys2Proof.Machine

/-- Settles O40: a call begun in an initial state appends its tokens, an encode call's being its symbols and EncDone. -/
theorem callsAreIndependent : Obligations.CallsAreIndependent := by
  refine ⟨fun T bytes s h => ?_, fun T cps s h => applyCommands_decodeCommands T cps h⟩
  rw [applyCommands_encodeCommands T bytes h, encodeTokens_eq, State.appendE, List.append_assoc]

namespace Reference

/-! The last group of a packed stream. -/

/-- No bits, no symbol. -/
@[simp] theorem packBits_nil (T : Tables) (fuel : Nat) : packBits T fuel [] = [] := by
  cases fuel with
  | zero => rfl
  | succ fuel => rfl

/-- A last group of 1 to 3 bits is the tail symbol of their number. -/
theorem packBits_tail (T : Tables) (fuel : Nat) {bits : List Bool} (h0 : 0 < bits.length) (h3 : bits.length ≤ 3) :
    packBits T (fuel + 1) bits = [T.tail (BitVec.ofNat 3 (bitsValue bits))] := by
  rw [packBits, if_neg (by omega), if_neg (by omega), if_pos h3]

/-- A last group of 4 to 10 bits is the main symbol of their number. -/
theorem packBits_main (T : Tables) (fuel : Nat) {bits : List Bool} (h4 : 4 ≤ bits.length) (h10 : bits.length ≤ 10) :
    packBits T (fuel + 1) bits = [T.enc (BitVec.ofNat 11 (bitsValue bits))] := by
  rw [packBits, if_neg (by omega), if_neg (by omega), if_neg (by omega)]

/-- At most `n` bits have a number that fits `n` bits. -/
theorem toNat_ofNat_bitsValue {n : Nat} {bits : List Bool} (h : bits.length ≤ n) :
    (BitVec.ofNat n (bitsValue bits)).toNat = bitsValue bits :=
  Nat.mod_eq_of_lt ((bitsValue_lt bits).trans_le (Nat.pow_le_pow_right (by decide) h))

/-! The literal reading of the source's branch (R106). -/

/-- The flush of at most 11 buffered bits is their packed stream: 11 are a full group. -/
theorem encodeLiteralFrom_nil (T : Tables) (fuel : Nat) {buf : List Bool} (h : buf.length ≤ 11) :
    encodeLiteralFrom T (bitsValue buf) buf.length [] = packBits T (fuel + 1) buf := by
  by_cases hfull : buf.length = 11
  · have hgroup := packBits_group T fuel [] hfull
    rw [List.append_nil, packBits_nil] at hgroup
    rw [hgroup, encodeLiteralFrom, if_neg (by omega), if_neg (by omega)]
  · rw [encodeLiteralFrom, packBits, if_neg (show ¬ 11 ≤ buf.length by omega)]

/-- The stream of `buf` and a byte, cut after 11 bits. -/
theorem append_byteBits_split (buf rest : List Bool) (b : Byte) :
    buf ++ (byteBits b ++ rest) =
      (buf ++ (byteBits b).take (11 - buf.length)) ++ ((byteBits b).drop (11 - buf.length) ++ rest) := by
  conv_lhs => rw [← List.take_append_drop (11 - buf.length) (byteBits b)]
  simp only [List.append_assoc]

/-- The literal reading, with the bits `buf` buffered (at most 11 of them), packs the stream of `buf` and the bytes to
come: it folds a byte in with up to 3 bits buffered, and completes a group otherwise. -/
theorem encodeLiteralFrom_eq_packBits (T : Tables) (bytes : List Byte) (fuel : Nat) (buf : List Bool)
    (h : buf.length ≤ 11) (hfuel : (buf ++ bitStream bytes).length ≤ fuel) :
    encodeLiteralFrom T (bitsValue buf) buf.length bytes = packBits T (fuel + 1) (buf ++ bitStream bytes) := by
  induction bytes generalizing fuel buf with
  | nil =>
    rw [bitStream_nil, List.append_nil]
    exact encodeLiteralFrom_nil T fuel h
  | cons b bytes ih =>
    rw [bitStream_cons] at hfuel ⊢
    rw [encodeLiteralFrom]
    by_cases hbranch : 11 - buf.length < 8
    · have hgroup : (buf ++ (byteBits b).take (11 - buf.length)).length = 11 := by
        rw [List.length_append, List.length_take, byteBits_length]; omega
      have hkept : ((byteBits b).drop (11 - buf.length)).length = 8 - (11 - buf.length) := by
        rw [List.length_drop, byteBits_length]
      have hindex : bitsValue (buf ++ (byteBits b).take (11 - buf.length)) =
          bitsValue buf * 2 ^ (11 - buf.length) + b.toNat / 2 ^ (8 - (11 - buf.length)) := by
        rw [bitsValue_append, bitsValue_take_byteBits, List.length_take, byteBits_length, Nat.min_eq_left (by omega)]
      rw [append_byteBits_split, List.length_append, hgroup] at hfuel
      obtain ⟨fuel, rfl⟩ : ∃ n, fuel = n + 1 := ⟨fuel - 1, by omega⟩
      rw [if_pos hbranch, append_byteBits_split, packBits_group T _ _ hgroup, hindex, ← bitsValue_drop_byteBits,
        ← hkept, ih fuel _ (by omega) (by omega)]
    · have hbuf : (buf ++ byteBits b).length = buf.length + 8 := by rw [List.length_append, byteBits_length]
      have hvalue : bitsValue (buf ++ byteBits b) = bitsValue buf * 2 ^ 8 + b.toNat := by
        rw [bitsValue_append, bitsValue_byteBits, byteBits_length]
      rw [← List.append_assoc] at hfuel ⊢
      rw [if_neg hbranch, ← hvalue, ← hbuf, ih fuel _ (by omega) hfuel]

/-! The length of a packed stream (R105). -/

/-- The fuel does not matter when no group is full. -/
theorem packBits_short (T : Tables) (fuel : Nat) {bits : List Bool} (h : bits.length < 11) :
    packBits T (fuel + 1) bits = packBits T 1 bits :=
  (if_neg (Nat.not_le.2 h)).trans (if_neg (Nat.not_le.2 h)).symm

/-- A stream packs to the main symbols of its full groups and then its last group, the `length mod 11` last bits. -/
theorem packBits_eq_groups_append_last (T : Tables) (fuel : Nat) (bits : List Bool) (h : bits.length ≤ fuel) :
    ∃ vs : List SymValue, vs.length = bits.length / 11 ∧
      packBits T (fuel + 1) bits = vs.map T.enc ++ packBits T 1 (bits.drop (bits.length - bits.length % 11)) := by
  induction fuel generalizing bits with
  | zero =>
    obtain rfl : bits = [] := List.length_eq_zero_iff.1 (Nat.le_zero.1 h)
    exact ⟨[], rfl, rfl⟩
  | succ fuel ih =>
    rcases Nat.lt_or_ge bits.length 11 with hshort | hgroup
    · refine ⟨[], (Nat.div_eq_of_lt hshort).symm, ?_⟩
      rw [Nat.mod_eq_of_lt hshort, Nat.sub_self, List.drop_zero, List.map_nil, List.nil_append]
      exact packBits_short T (fuel + 1) hshort
    · have hrest : (bits.drop 11).length = bits.length - 11 := List.length_drop
      obtain ⟨vs, hlen, hpack⟩ := ih (bits.drop 11) (by omega)
      have hlast : 11 + (bits.length - 11 - (bits.length - 11) % 11) = bits.length - bits.length % 11 := by omega
      rw [hrest, List.drop_drop, hlast] at hpack
      refine ⟨BitVec.ofNat 11 (bitsValue (bits.take 11)) :: vs, by rw [List.length_cons]; omega, ?_⟩
      rw [packBits, if_pos hgroup, hpack, List.map_cons, List.cons_append]

/-- The last group is one symbol, or none when there are no bits. -/
theorem packBits_last_length (T : Tables) {bits : List Bool} (h : bits.length ≤ 10) :
    (packBits T 1 bits).length = min 1 bits.length := by
  rcases Nat.eq_zero_or_pos bits.length with h0 | h0
  · rw [List.length_eq_zero_iff.1 h0]; rfl
  · rcases Nat.lt_or_ge 3 bits.length with h4 | h3
    · rw [packBits_main T 0 h4 h, List.length_singleton]; omega
    · rw [packBits_tail T 0 h0 h3, List.length_singleton]; omega

end Reference

/-- Settles O47: both readings pack the bit stream. -/
theorem bothBranchReadingsEncodeAlike : Obligations.BothBranchReadingsEncodeAlike := fun T bytes =>
  (encodeCallPacksTheBitStream T bytes).trans
    (Reference.encodeLiteralFrom_eq_packBits T bytes _ [] (Nat.zero_le _) le_rfl).symm

/-- Settles O48: the last group is the `8L mod 11` last bits of the stream. -/
theorem encodedLengthLaw : Obligations.EncodedLengthLaw := fun T bytes => by
  obtain ⟨vs, hvs, hpack⟩ := Reference.packBits_eq_groups_append_last T _ (Reference.bitStream bytes) le_rfl
  rw [encodeCallPacksTheBitStream T bytes, Reference.encodeStream, hpack]
  rw [Reference.bitStream_length] at hvs ⊢
  have hlast : ((Reference.bitStream bytes).drop (8 * bytes.length - 8 * bytes.length % 11)).length =
      8 * bytes.length % 11 := by
    rw [List.length_drop, Reference.bitStream_length]; omega
  generalize (Reference.bitStream bytes).drop (8 * bytes.length - 8 * bytes.length % 11) = last at hlast ⊢
  refine ⟨?_, vs, fun h0 => ?_, fun h1 h3 => ⟨_, ?_, Reference.toNat_ofNat_bitsValue (by omega)⟩,
    fun h4 => ⟨_, ?_, Reference.toNat_ofNat_bitsValue (by omega)⟩⟩
  · rw [List.length_append, List.length_map, hvs, Reference.packBits_last_length T (by omega), hlast]
    omega
  · rw [List.length_eq_zero_iff.1 (hlast.trans h0), Reference.packBits_nil, List.append_nil]
  · rw [Reference.packBits_tail T 0 (by omega) (by omega)]
  · rw [Reference.packBits_main T 0 (by omega) (by omega)]

end Sys2Proof.Machine
end

section
/-! DEC_SYM and DEC_END (spec/41_decoder.md R131, R132, R135), one command in any legal state. -/

namespace Sys2Proof.Machine

/-! What each check answers (R130 steps 2 to 4). -/

theorem checkSymbol_of_gt {T : Tables} {c : CodePoint} (last : Bool) (res : Fin 8) (rem : Fin 9) (h : T.maxCp < c) :
    checkSymbol T c last res rem = .error .invalidCharacter := if_pos h

theorem checkSymbol_of_data {T : Tables} {c : CodePoint} {v : SymValue} (last : Bool) (res : Fin 8) (rem : Fin 9)
    (h : c ≤ T.maxCp) (hd : T.dec c = .data v) : checkSymbol T c last res rem = .ok (dataBits last res, v.toNat) := by
  simp only [checkSymbol, if_neg (BitVec.not_lt.2 h), hd]

theorem checkSymbol_of_term_notLast {T : Tables} {c : CodePoint} (res : Fin 8) (rem : Fin 9) (h : c ≤ T.maxCp)
    (hd : T.dec c = .term) : checkSymbol T c false res rem = .error .unexpectedAfterTerminator := by
  simp only [checkSymbol, if_neg (BitVec.not_lt.2 h), hd, if_true]

theorem checkSymbol_of_no_tailIndex {T : Tables} {c : CodePoint} (res : Fin 8) (rem : Fin 9) (h : c ≤ T.maxCp)
    (hd : T.dec c = .term) (ht : tailIndex T c = none) :
    checkSymbol T c true res rem = .error .invalidTerminationCharacter := by
  simp [checkSymbol, BitVec.not_lt.2 h, hd, ht]

theorem checkSymbol_of_tailIndex_ge {T : Tables} {c : CodePoint} {j : TailIndex} (res : Fin 8) (rem : Fin 9)
    (h : c ≤ T.maxCp) (hd : T.dec c = .term) (ht : tailIndex T c = some j) (hj : 2 ^ tailBits rem ≤ j.toNat) :
    checkSymbol T c true res rem = .error .invalidTailCharacter := by
  simp [checkSymbol, BitVec.not_lt.2 h, hd, ht, hj]

theorem checkSymbol_of_tailIndex_lt {T : Tables} {c : CodePoint} {j : TailIndex} (res : Fin 8) (rem : Fin 9)
    (h : c ≤ T.maxCp) (hd : T.dec c = .term) (ht : tailIndex T c = some j) (hj : j.toNat < 2 ^ tailBits rem) :
    checkSymbol T c true res rem = .ok (tailBits rem, j.toNat) := by
  simp [checkSymbol, BitVec.not_lt.2 h, hd, ht, Nat.not_le.2 hj]

/-! The frame. -/

/-- A decoder command writes the decoder's registers and its stream only. -/
theorem decCommand_frame (T : Tables) {i : Instr} (hi : isEncCommand i = false) (s : State) :
    effectWith T i s =
      { s with d_stage := (effectWith T i s).d_stage, d_rem := (effectWith T i s).d_rem,
               d_residue := (effectWith T i s).d_residue, d_pend_valid := (effectWith T i s).d_pend_valid,
               d_pend_cp := (effectWith T i s).d_pend_cp, d_count := (effectWith T i s).d_count,
               d_err := (effectWith T i s).d_err, d_err_pos := (effectWith T i s).d_err_pos,
               d_err_cp := (effectWith T i s).d_err_cp, dec_out := (effectWith T i s).dec_out } := by
  obtain ⟨v, ds, h, -⟩ := decCommand_writes T hi s
  rw [h]; rfl

/-- Settles O28: a decoder command is local to the decoder. -/
theorem decoderCommandsFrame : Obligations.DecoderCommandsFrame := fun i s hi => by
  obtain ⟨v, ds, h, -⟩ := decCommand_writes Config.tables hi s
  refine ⟨_, exec_eq_effect i s, decCommand_keeps_encoder Config.tables hi s, ?_⟩
  rw [h]
  exact ⟨rfl, rfl, ds, rfl⟩

/-! DEC_SYM. -/

/-- DEC_SYM reaches a state that does not depend on the symbol presented, and then holds that symbol or not, which does
not depend on it either (R131, spec/70_reset_and_hazards.md R204). -/
theorem decSymEffect_holds_or_discards (T : Tables) (s : State) :
    ∃ t : State, (∀ c, decSymEffect T c s = t) ∨ ∀ c, decSymEffect T c s = t.holdPending c := by
  cases he : s.d_err with
  | some code => exact ⟨s, .inl fun c => decSymEffect_failed T c he⟩
  | none =>
    cases hp : s.d_pend_valid with
    | false => exact ⟨s, .inr fun c => decSymEffect_first T c he hp⟩
    | true =>
      cases hc : checkSymbol T s.d_pend_cp false (nextResidue s.d_residue) s.d_rem with
      | error code => exact ⟨_, .inl fun c => decSymEffect_raise T c he hp hc⟩
      | ok kv => exact ⟨_, .inr fun c => decSymEffect_pass T c he hp hc⟩

/-- Settles O29: the symbol is written to `d_pend_cp` or nowhere. -/
theorem newSymbolIsNotLookedAt : Obligations.NewSymbolIsNotLookedAt := fun c c' s => by
  refine ⟨_, _, exec_eq_effect (.decSym c) s, exec_eq_effect (.decSym c') s, fun x => ?_⟩
  obtain ⟨t, h | h⟩ := decSymEffect_holds_or_discards Config.tables s
  all_goals rw [effectWith, effectWith, h c, h c']
  rfl

/-- Settles O26: nothing is processed when no symbol is pending. -/
theorem firstSymbolIsOnlyHeld : Obligations.FirstSymbolIsOnlyHeld := fun c s herr hp =>
  (exec_eq_effect (.decSym c) s).trans (congrArg Host.Outcome.next (decSymEffect_first Config.tables c herr hp))

/-- A number that fits a byte is the byte's value. -/
theorem trunc8_toNat {a : Nat} (h : a < 2 ^ 8) : (trunc8 a).toNat = a := Nat.mod_eq_of_lt h

/-- The bits of `a` from bit `n + m` up fit the rest of its width. -/
theorem div_two_pow_lt {a n m : Nat} (h : a < 2 ^ (n + m)) : a / 2 ^ n < 2 ^ m :=
  Nat.div_lt_of_lt_mul (by rwa [← pow_add])

/-- DEC_SYM when the pending symbol is data: 11 bits are merged, the whole bytes leave and the rest is kept. -/
theorem decSymEffect_data (T : Tables) (c : CodePoint) {s : State} {v : SymValue} (herr : s.d_err = none)
    (hp : s.d_pend_valid = true) (hle : s.d_pend_cp ≤ T.maxCp) (hd : T.dec s.d_pend_cp = .data v)
    {bs : List Byte} {a r : Nat} (hdrain : drain (s.d_stage.toNat * 2 ^ 11 + v.toNat) (s.d_rem.val + 11) = (bs, a, r)) :
    decSymEffect T c s =
      ((s.emitBytes bs).setDec (BitVec.ofNat 8 a) (Fin.ofNat 9 r) (nextResidue s.d_residue)).holdPending c := by
  have hc := checkSymbol_of_data false (nextResidue s.d_residue) s.d_rem hle hd
  rw [decSymEffect_pass T c herr hp hc, process_ok_notLast _ hc, dataBits, if_neg (by decide), merge_eq _ v.isLt,
    hdrain]

/-- Settles O23: one case of DEC_SYM for each answer of the checks; a data symbol's 11 bits complete one byte or
two. -/
theorem decSymResult : Obligations.DecSymResult := by
  refine ⟨fun _ => decode_of_decSym_row, fun T c s hs => ⟨decSymEffect T c s, rfl, ?_, ?_, ?_, fun herr hp => ?_⟩⟩
  · rintro rfl
    exact exec_eq_effect (.decSym c) s
  · intro herr
    obtain ⟨code, h⟩ := Option.ne_none_iff_exists'.1 herr
    exact decSymEffect_failed T c h
  · exact decSymEffect_first T c
  refine ⟨fun hgt => decSymEffect_raise T c herr hp (checkSymbol_of_gt _ _ _ hgt),
    fun hle hd => decSymEffect_raise T c herr hp (checkSymbol_of_term_notLast _ _ hle hd), fun v hle hd => ?_⟩
  have hacc : s.d_stage.toNat * 2 ^ 11 + v.toNat < 2 ^ (s.d_rem.val + 11) :=
    merge_eq s.d_stage v.isLt ▸ merge_lt hs v.isLt
  have hdata := fun bs a r => decSymEffect_data T c (bs := bs) (a := a) (r := r) herr hp hle hd
  have hrem := s.d_rem.isLt
  generalize s.d_stage.toNat * 2 ^ 11 + v.toNat = acc at hacc hdata ⊢
  have hkept (n : Nat) (hn : n ≤ 8) : (BitVec.ofNat 8 (acc % 2 ^ n)).toNat = acc % 2 ^ n :=
    Nat.mod_eq_of_lt ((Nat.mod_lt _ (by positivity)).trans_le (Nat.pow_le_pow_right (by decide) hn))
  have hfirst : acc / 2 ^ (s.d_rem.val + 3) < 2 ^ 8 := div_two_pow_lt hacc
  rcases Nat.lt_or_ge s.d_rem.val 6 with hone | htwo
  · rw [hdata _ _ _ (drain_one (by omega) (by omega))]
    refine ⟨rfl, rfl, fun _ => ⟨Nat.mod_eq_of_lt (by omega), hkept _ (by omega), _, trunc8_toNat hfirst, rfl⟩, ?_⟩
    omega
  · rw [hdata _ _ _ (drain_two (by omega) (by omega))]
    have hsecond : acc % 2 ^ (s.d_rem.val + 3) / 2 ^ (s.d_rem.val - 5) = acc / 2 ^ (s.d_rem.val - 5) % 2 ^ 8 := by
      rw [show s.d_rem.val + 3 = s.d_rem.val - 5 + 8 by omega, pow_add, Nat.mod_mul_right_div_self]
    have hsecond' := (trunc8_toNat (hsecond ▸ Nat.mod_lt _ (by decide))).trans hsecond
    exact ⟨rfl, rfl, by omega, fun _ =>
      ⟨Nat.mod_eq_of_lt (by omega), hkept _ (by omega), _, _, trunc8_toNat hfirst, hsecond', rfl⟩⟩

/-! DEC_END. -/

/-- Settles O27: an empty call ends with no error latched. -/
theorem emptyDecodeCallSucceeds : Obligations.EmptyDecodeCallSucceeds := fun s herr hp => by
  refine ⟨_, exec_eq_effect .decEnd s, decEndEffect_atInit Config.tables s, ?_⟩
  rw [effectWith, decEndEffect_empty Config.tables herr hp, endDecodeCall_dec_out, callStatus_of_none herr]

/-- Settles O30: the last symbol fills one byte or two, and the loop takes the first of two. -/
theorem finalFlushIsByteAligned : Obligations.FinalFlushIsByteAligned := fun T c s k v hres hc => by
  rcases lastSymbol_fills_bytes hres hc with h | h
  · rw [h, drain_of_le le_rfl]
  · rw [h, drain_one (by decide) le_rfl]

/-- The bytes PROCESS emits for a last symbol: those of the loop, then the final flush (R130 step 6). -/
def lastBytes (acc r : Nat) : List Byte := (drain acc r).1 ++ finalFlush (drain acc r).2.1 (drain acc r).2.2

/-- PROCESS emits the bytes of a last symbol that passes. -/
theorem process_last {T : Tables} {c : CodePoint} {s : State} {k v : Nat} (i : Pos)
    (h : checkSymbol T c true (nextResidue s.d_residue) s.d_rem = .ok (k, v)) :
    process T c i true s = s.emitBytes (lastBytes (merge s.d_stage k v) (s.d_rem.val + k)) := process_ok_last i h

/-- Eight bits are their byte. -/
theorem lastBytes_eight (acc : Nat) : lastBytes acc 8 = [trunc8 acc] := by
  rw [lastBytes, drain_of_le le_rfl, finalFlush_eight, List.nil_append]

/-- Sixteen bits are two bytes. -/
theorem lastBytes_sixteen (acc : Nat) : lastBytes acc 16 = [trunc8 (acc / 2 ^ 8), trunc8 acc] := by
  have hlow : trunc8 (acc % 2 ^ 8) = trunc8 acc := BitVec.eq_of_toNat_eq (Nat.mod_mod acc (2 ^ 8))
  rw [lastBytes, drain_one (by decide) le_rfl, finalFlush_eight, hlow, List.singleton_append]

/-- DEC_END when the pending symbol fails a check: the error is reported and no byte leaves. -/
theorem decEndEffect_raise_dec_out (T : Tables) {s : State} {code : ErrCode} (herr : s.d_err = none)
    (hp : s.d_pend_valid = true)
    (hc : checkSymbol T s.d_pend_cp true (nextResidue s.d_residue) s.d_rem = .error code) :
    (decEndEffect T s).dec_out = s.dec_out ++ [.decDone (.err code (pendPos s) s.d_pend_cp)] := by
  rw [decEndEffect_pend T herr hp, process_error _ hc]; rfl

/-- DEC_END when the pending symbol passes: its bytes leave, then DecDone(OK). -/
theorem decEndEffect_pass_dec_out (T : Tables) {s : State} {k v : Nat} (herr : s.d_err = none)
    (hp : s.d_pend_valid = true)
    (hc : checkSymbol T s.d_pend_cp true (nextResidue s.d_residue) s.d_rem = .ok (k, v)) :
    (decEndEffect T s).dec_out = s.dec_out ++
      ((lastBytes (merge s.d_stage k v) (s.d_rem.val + k)).map DecToken.byte ++ [.decDone .ok]) := by
  rw [decEndEffect_pend T herr hp, process_last _ hc, endDecodeCall_dec_out,
    callStatus_of_none (s := s.emitBytes _) herr, State.emitBytes_dec_out, List.append_assoc]

/-- DEC_END writes `DEC_INIT` and its tokens, and nothing else. -/
theorem decEndEffect_frame (T : Tables) (s : State) :
    decEndEffect T s =
      { s with d_stage := 0#8, d_rem := 0, d_residue := 0, d_pend_valid := false, d_pend_cp := 0#21, d_count := 0#32,
               d_err := none, d_err_pos := 0#32, d_err_cp := 0#21, dec_out := (decEndEffect T s).dec_out } := by
  obtain ⟨hstage, hrem, hresidue, hvalid, hcp, hcount, herr, hpos, hecp⟩ := decEndEffect_atInit T s
  have hframe := decCommand_frame T (i := .decEnd) rfl s
  rwa [effectWith, hstage, hrem, hresidue, hvalid, hcp, hcount, herr, hpos, hecp] at hframe

/-- Settles O24: one case of DEC_END for each answer of the checks; a last symbol that passes fills one byte or two. -/
theorem decEndResult : Obligations.DecEndResult := by
  refine ⟨rfl, fun T s hs hres => ⟨decEndEffect T s, rfl, ?_, decEndEffect_frame T s, fun code herr => ?_,
    fun herr hp => ?_, fun herr hp => ?_⟩⟩
  · rintro rfl
    exact exec_eq_effect .decEnd s
  · rw [decEndEffect_failed T herr, endDecodeCall_dec_out, callStatus_of_some herr]
  · rw [decEndEffect_empty T herr hp, endDecodeCall_dec_out, callStatus_of_none herr]
  refine ⟨fun hgt => decEndEffect_raise_dec_out T herr hp (checkSymbol_of_gt _ _ _ hgt), fun v hle hd => ?_,
    fun hle hd hno => ?_, fun j hle hd hj hmin => ⟨fun hge => ?_, fun hlt => ?_⟩⟩
  · have hc := checkSymbol_of_data true (nextResidue s.d_residue) s.d_rem hle hd
    refine ⟨_, _, rfl, rfl, ?_⟩
    rw [decEndEffect_pass_dec_out T herr hp hc, dataBits, if_pos rfl, nextResidue_val]
    rcases lastSymbol_fills_bytes hres hc with h | h
    all_goals rw [dataBits, if_pos rfl, nextResidue_val] at h
    · exact .inl ⟨h, by rw [h, lastBytes_eight]; rfl⟩
    · exact .inr ⟨h, by rw [h, lastBytes_sixteen]; rfl⟩
  · exact decEndEffect_raise_dec_out T herr hp
      (checkSymbol_of_no_tailIndex _ _ hle hd ((tailIndex_eq_none_iff T _).2 hno))
  · exact decEndEffect_raise_dec_out T herr hp
      (checkSymbol_of_tailIndex_ge _ _ hle hd ((tailIndex_eq_some_iff T _ j).2 ⟨hj, hmin⟩) hge)
  · have hc := checkSymbol_of_tailIndex_lt (nextResidue s.d_residue) s.d_rem hle hd
      ((tailIndex_eq_some_iff T _ j).2 ⟨hj, hmin⟩) hlt
    have hfill : s.d_rem.val + tailBits s.d_rem = 8 := Nat.add_sub_cancel' (Nat.le_of_lt_succ s.d_rem.isLt)
    have hfit := merge_lt (k := tailBits s.d_rem) hs hlt
    rw [hfill] at hfit
    refine ⟨_, (trunc8_toNat hfit).trans (merge_eq _ hlt), ?_⟩
    rw [decEndEffect_pass_dec_out T herr hp hc, hfill, lastBytes_eight]; rfl

/-! The code points that pass (R142). -/

/-- Settles O52: of the checks' answers two let a symbol pass; T4 names the data symbol, the search the tail symbol. -/
theorem acceptedCodePointsAreOfTheAlphabets : Obligations.AcceptedCodePointsAreOfTheAlphabets :=
  fun T c last res rem k v _ h4 hc => by
    rcases checkSymbol_cases T c last res rem with ⟨-, h⟩ | ⟨hle, x, hd, h⟩ | ⟨-, -, -, h⟩ | ⟨-, -, -, -, h⟩ |
      ⟨-, -, -, j, -, -, h⟩ | ⟨-, -, -, j, hj, -, h⟩
    all_goals rw [h] at hc; cases hc
    · exact .inl ⟨x, rfl, h4 c x hle hd⟩
    · obtain ⟨hmem, -⟩ := (tailIndex_eq_some_iff T c j).1 hj
      exact .inr ⟨j, rfl, hmem⟩

end Sys2Proof.Machine
end

section
/-! A decode call is the source's whole-buffer decoder (spec/41_decoder.md R139, spec/60_exceptions.md R177): the checks
and the loop of the two agree, and each command of the call is one round of the reference. -/

namespace Sys2Proof.Machine

/-- `drain_length` for an answer of the loop given by name. -/
theorem drain_length_of_eq {acc r a r' : Nat} {bs : List Byte} (h : drain acc r = (bs, a, r')) :
    r' ≤ 8 ∧ r = 8 * bs.length + r' ∧ (0 < r → 0 < r') := by simpa only [h] using drain_length acc r

/-- When a byte leaves, the bits kept are a remainder of the merged ones, so they fit their count. -/
theorem drain_rest_lt {acc r a r' : Nat} {bs : List Byte} (h : drain acc r = (bs, a, r')) (h8 : 8 < r) (h24 : r ≤ 24) :
    a < 2 ^ r' := by
  rcases Nat.lt_or_ge 16 r with h16 | h16
  · rw [drain_two h16 h24] at h; cases h; exact Nat.mod_lt _ (by positivity)
  · rw [drain_one h8 h16] at h; cases h; exact Nat.mod_lt _ (by positivity)

namespace Reference

/-! The checks and the loop. -/

/-- The reference finds the same tail index. -/
theorem tailIndexNat_eq (T : Tables) (c : CodePoint) : tailIndexNat T c = (tailIndex T c).map BitVec.toNat := by
  have hrange : List.range 8 = tailIndices.map BitVec.toNat := by decide
  rw [tailIndexNat, hrange, List.find?_map, tailIndex]
  simp

/-- The reference's checks are those of the machine, with the codes as numbers (spec/60_exceptions.md R171). -/
theorem symbolBits_eq (T : Tables) (c : CodePoint) (last : Bool) (res : Fin 8) (rem : Fin 9) :
    symbolBits T res.val rem.val c last =
      (checkSymbol T c last res rem).mapError fun code => code.number.toNat := by
  rcases checkSymbol_cases T c last res rem with ⟨hm, h⟩ | ⟨hle, v, hd, h⟩ | ⟨hle, hd, rfl, h⟩ | ⟨hle, hd, rfl, ht, h⟩ |
    ⟨hle, hd, rfl, t, ht, hge, h⟩ | ⟨hle, hd, rfl, t, ht, hlt, h⟩
  all_goals rw [h, symbolBits, tailIndexNat_eq]
  · rw [if_pos (BitVec.lt_def.1 hm)]; rfl
  all_goals rw [if_neg (Nat.not_lt.2 (BitVec.le_def.1 hle)), hd]
  · rfl
  · rfl
  · rw [ht]; rfl
  · rw [ht]; exact if_pos hge
  · rw [ht]; exact if_neg (Nat.not_le.2 hlt)

/-- The reference's loop is the machine's, each with rounds enough. -/
theorem wholeBytes_eq_drainRounds (fuel fuel' acc r : Nat) (h : r ≤ 8 * fuel + 8) (h' : r ≤ 8 * fuel' + 8) :
    wholeBytes fuel acc r = drainRounds fuel' acc r := by
  induction fuel generalizing fuel' acc r with
  | zero => rw [drainRounds_of_le (by omega)]; rfl
  | succ fuel ih =>
    rw [wholeBytes]
    split
    case isTrue hle => rw [drainRounds_of_le hle]
    case isFalse hgt =>
      obtain ⟨n, rfl⟩ : ∃ n, fuel' = n + 1 := ⟨fuel' - 1, by omega⟩
      rw [drainRounds_succ_of_gt (by omega), ih n _ _ (by omega) (by omega)]; rfl

/-- Two rounds are enough for the bits of one symbol. -/
theorem wholeBytes_two {acc r : Nat} (h : r ≤ 24) : wholeBytes 2 acc r = drain acc r :=
  wholeBytes_eq_drainRounds 2 r acc r h (by omega)

/-! One round of the reference. -/

/-- A symbol that fails a check ends the decode. -/
theorem decodeFrom_error {T : Tables} {residue rem : Nat} {c : CodePoint} {cs : List CodePoint} {code : Nat}
    (stage pos : Nat) (h : symbolBits T ((residue + 11) % 8) rem c cs.isEmpty = .error code) :
    decodeFrom T stage rem residue pos (c :: cs) = ([], .fail code pos c) := by
  cases cs with
  | nil => rw [List.isEmpty_nil] at h; simp only [decodeFrom, h]
  | cons c' cs => rw [List.isEmpty_cons] at h; simp only [decodeFrom, h]

/-- A last symbol that passes. -/
theorem decodeFrom_last {T : Tables} {residue rem : Nat} {c : CodePoint} {k v : Nat} (stage pos : Nat)
    (h : symbolBits T ((residue + 11) % 8) rem c true = .ok (k, v)) (hr : rem + k ≤ 24) :
    decodeFrom T stage rem residue pos [c] = (lastBytes (stage * 2 ^ k ||| v) (rem + k), .ok) := by
  simp only [decodeFrom, h, wholeBytes_two hr, lastBytes, finalFlush, trunc8, Nat.shiftRight_eq_div_pow]

/-- A symbol that passes with others after it. -/
theorem decodeFrom_next {T : Tables} {residue rem : Nat} {c : CodePoint} {cs : List CodePoint} {k v stage : Nat}
    {bs : List Byte} {a r : Nat} (pos : Nat) (hcs : cs ≠ [])
    (h : symbolBits T ((residue + 11) % 8) rem c false = .ok (k, v)) (hr : rem + k ≤ 24)
    (hdrain : drain (stage * 2 ^ k ||| v) (rem + k) = (bs, a, r)) :
    decodeFrom T stage rem residue pos (c :: cs) =
      (bs ++ (decodeFrom T a r ((residue + 11) % 8) (pos + 1) cs).1,
        (decodeFrom T a r ((residue + 11) % 8) (pos + 1) cs).2) := by
  cases cs with
  | nil => exact absurd rfl hcs
  | cons c' cs => simp only [decodeFrom, h, wholeBytes_two hr, hdrain]

/-- The status a DecDone carries for how the reference ends: the same code and code point, and the position modulo
`2^32` (spec/10_state.md R27). -/
def Verdict.ReportedAs : Verdict → Status → Prop
  | .ok, st => st = .ok
  | .fail code pos cp, st => ∃ e : ErrCode, st = .err e (BitVec.ofNat 32 pos) cp ∧ e.number.toNat = code

/-- The tokens of a call for what the reference answers: the bytes in order, then a DecDone. -/
def RenderedAs (d : List Byte × Verdict) (ts : List DecToken) : Prop :=
  ∃ st, ts = d.1.map DecToken.byte ++ [.decDone st] ∧ d.2.ReportedAs st

/-- The tokens of a decode that fails before any byte. -/
theorem renderedAs_fail (code : ErrCode) (pos : Nat) (c : CodePoint) :
    RenderedAs ([], .fail code.number.toNat pos c) [.decDone (.err code (BitVec.ofNat 32 pos) c)] :=
  ⟨_, rfl, code, rfl, rfl⟩

/-- The tokens of a decode that succeeds. -/
theorem renderedAs_ok (bs : List Byte) : RenderedAs (bs, .ok) (bs.map DecToken.byte ++ [.decDone .ok]) := ⟨_, rfl, rfl⟩

/-- Bytes before a decode's own are Byte tokens before its own. -/
theorem RenderedAs.bytes_append {d : List Byte × Verdict} {ts : List DecToken} (h : RenderedAs d ts) (bs : List Byte) :
    RenderedAs (bs ++ d.1, d.2) (bs.map DecToken.byte ++ ts) := by
  obtain ⟨st, rfl, hst⟩ := h
  exact ⟨st, by simp, hst⟩

end Reference

open Reference

/-! The call. -/

/-- A call with an error latched emits no byte and reports the error (spec/60_exceptions.md R179). -/
theorem decodeCommands_failed (T : Tables) (cs : List CodePoint) {s : State} {code : ErrCode}
    (h : s.d_err = some code) :
    (applyCommands T (decodeCommands cs) s).dec_out =
      s.dec_out ++ [.decDone (.err code s.d_err_pos s.d_err_cp)] := by
  induction cs with
  | nil =>
    change (decEndEffect T s).dec_out = _
    rw [decEndEffect_failed T h, endDecodeCall_dec_out, callStatus_of_some h]
  | cons c cs ih =>
    change (applyCommands T (decodeCommands cs) (decSymEffect T c s)).dec_out = _
    rw [decSymEffect_failed T c h, ih]

/-- The registers and the bytes of a DEC_SYM whose pending symbol passes, written out as the reference's next round has
them: what the loop keeps fits the registers. -/
theorem decSymEffect_next (T : Tables) (c : CodePoint) {s : State} {v a r : Nat} {bs : List Byte}
    (herr : s.d_err = none) (hp : s.d_pend_valid = true)
    (hc : checkSymbol T s.d_pend_cp false (nextResidue s.d_residue) s.d_rem = .ok (11, v))
    (hdrain : drain (merge s.d_stage 11 v) (s.d_rem.val + 11) = (bs, a, r)) :
    ∃ t : State, decSymEffect T c s = t.holdPending c ∧ t.d_stage.toNat = a ∧ t.d_rem.val = r ∧
      t.d_residue.val = (s.d_residue.val + 11) % 8 ∧ t.d_count = s.d_count ∧ t.d_err = none ∧
      t.dec_out = s.dec_out ++ bs.map DecToken.byte := by
  have hrem := s.d_rem.isLt
  obtain ⟨hle, -, -⟩ := drain_length_of_eq hdrain
  have hfit := drain_rest_lt hdrain (by omega) (by omega)
  refine ⟨_, decSymEffect_pass T c herr hp hc, ?_⟩
  rw [process_ok_notLast _ hc, hdrain]
  exact ⟨Nat.mod_eq_of_lt (hfit.trans_le (Nat.pow_le_pow_right (by decide) hle)),
    Nat.mod_eq_of_lt (Nat.lt_succ_of_le hle), rfl, rfl, herr, rfl⟩

/-- The rest of a call with a symbol pending at position `pos` is the reference on that symbol and those to come. -/
theorem decodeCommands_renders (T : Tables) (cs : List CodePoint) (pos : Nat) (s : State) (herr : s.d_err = none)
    (hp : s.d_pend_valid = true) (hpos : pendPos s = BitVec.ofNat 32 pos) :
    ∃ ts, (applyCommands T (decodeCommands cs) s).dec_out = s.dec_out ++ ts ∧
      RenderedAs (decodeFrom T s.d_stage.toNat s.d_rem.val s.d_residue.val pos (s.d_pend_cp :: cs)) ts := by
  induction cs generalizing pos s with
  | nil =>
    have hrem := s.d_rem.isLt
    have hbits := symbolBits_eq T s.d_pend_cp true (nextResidue s.d_residue) s.d_rem
    change ∃ ts, (decEndEffect T s).dec_out = s.dec_out ++ ts ∧ _
    cases hc : checkSymbol T s.d_pend_cp true (nextResidue s.d_residue) s.d_rem with
    | error code =>
      rw [hc] at hbits
      rw [decodeFrom_error _ _ hbits, decEndEffect_raise_dec_out T herr hp hc, hpos]
      exact ⟨_, rfl, renderedAs_fail code pos s.d_pend_cp⟩
    | ok kv =>
      obtain ⟨k, v⟩ := kv
      have hk := checkSymbol_ok_last hc
      rw [hc] at hbits
      rw [decodeFrom_last _ _ hbits (by omega), decEndEffect_pass_dec_out T herr hp hc, merge, Nat.shiftLeft_eq]
      exact ⟨_, rfl, renderedAs_ok _⟩
  | cons c cs ih =>
    have hrem := s.d_rem.isLt
    have hbits := symbolBits_eq T s.d_pend_cp false (nextResidue s.d_residue) s.d_rem
    change ∃ ts, (applyCommands T (decodeCommands cs) (decSymEffect T c s)).dec_out = s.dec_out ++ ts ∧ _
    cases hc : checkSymbol T s.d_pend_cp false (nextResidue s.d_residue) s.d_rem with
    | error code =>
      rw [hc] at hbits
      rw [decodeFrom_error _ _ hbits, decSymEffect_raise T c herr hp hc, decodeCommands_failed T cs rfl, hpos]
      exact ⟨_, rfl, renderedAs_fail code pos s.d_pend_cp⟩
    | ok kv =>
      obtain ⟨k, v⟩ := kv
      obtain rfl := checkSymbol_ok_notLast hc
      rw [hc] at hbits
      obtain ⟨bs, a, r, hdrain⟩ : ∃ bs a r, drain (merge s.d_stage 11 v) (s.d_rem.val + 11) = (bs, a, r) :=
        ⟨_, _, _, rfl⟩
      obtain ⟨t, ht, rfl, rfl, hres, hcount, hterr, hout⟩ := decSymEffect_next T c herr hp hc hdrain
      have hnext : pendPos (t.holdPending c) = BitVec.ofNat 32 (pos + 1) := by
        rw [pendPos_holdPending, hcount, BitVec.ofNat_add, ← hpos, pendPos, BitVec.sub_add_cancel]
      obtain ⟨ts, hrest, hts⟩ := ih (pos + 1) (t.holdPending c) hterr rfl hnext
      rw [merge, Nat.shiftLeft_eq] at hdrain
      rw [decodeFrom_next pos (List.cons_ne_nil _ _) hbits (by omega) hdrain, ← hres, ht, hrest,
        State.holdPending_dec_out, hout, List.append_assoc]
      exact ⟨_, rfl, hts.bytes_append bs⟩

/-- A call's tokens are those of what the reference answers. -/
theorem decodeCall_renders (T : Tables) (cps : List CodePoint) : RenderedAs (decodeWhole T cps) (decodeCall T cps) := by
  cases cps with
  | nil => exact renderedAs_ok []
  | cons c cs =>
    obtain ⟨ts, hcall, hts⟩ :=
      decodeCommands_renders T cs 0 (State.reset.holdPending c) rfl rfl (pendPos_holdPending _ c)
    exact (show decodeCall T (c :: cs) = ts from hcall) ▸ hts

/-- Settles O49: the status of the call is read off how the reference ends. -/
theorem decodeCallIsTheWholeBufferDecoder : Obligations.DecodeCallIsTheWholeBufferDecoder := fun T cps => by
  obtain ⟨st, hcall, hst⟩ := decodeCall_renders T cps
  refine ⟨st, hcall, fun hok => ?_, fun code pos cp hfail => ?_⟩
  · rwa [hok] at hst
  · rwa [hfail] at hst

/-- A call succeeds with the bytes `bs` exactly when the reference does. -/
theorem decodeCall_ok_iff (T : Tables) (cps : List CodePoint) (bs : List Byte) :
    decodeCall T cps = bs.map DecToken.byte ++ [.decDone .ok] ↔ decodeWhole T cps = (bs, .ok) := by
  obtain ⟨st, hcall, hst⟩ := decodeCall_renders T cps
  rw [hcall]
  generalize decodeWhole T cps = d at hst ⊢
  obtain ⟨bs', verdict⟩ := d
  constructor
  · intro h
    obtain ⟨hbytes, hdone⟩ := List.append_inj' h rfl
    obtain rfl : bs' = bs := List.map_injective_iff.2 (fun _ _ h => DecToken.byte.inj h) hbytes
    obtain rfl : st = .ok := by simpa using hdone
    cases verdict with
    | ok => rfl
    | fail code pos cp =>
      obtain ⟨e, he, -⟩ := hst
      cases he
  · rintro ⟨rfl, rfl⟩
    obtain rfl : st = .ok := hst
    rfl

end Sys2Proof.Machine
end

section
/-! How many bytes a successful decode call gives (spec/41_decoder.md R137). -/

namespace Sys2Proof.Machine

/-- The bits of a last symbol that fills one byte or two leave as one byte or two. -/
theorem lastBytes_length (acc : Nat) {r : Nat} (h : r = 8 ∨ r = 16) : (lastBytes acc r).length = r / 8 := by
  rcases h with rfl | rfl
  · rw [lastBytes_eight]; rfl
  · rw [lastBytes_sixteen]; rfl

namespace Reference

/-- A symbol that passes the checks is data, with 11 bits or `11 - res` of them, or a last terminator, with
`8 - d_rem`. -/
theorem symbolBits_ok_cases {T : Tables} {residue rem : Nat} {c : CodePoint} {last : Bool} {k v : Nat}
    (h : symbolBits T residue rem c last = .ok (k, v)) :
    (∃ x, T.dec c = .data x ∧ k = if last then 11 - residue else 11) ∨
      (T.dec c = .term ∧ last = true ∧ k = 8 - rem) := by
  unfold symbolBits at h
  split at h
  · cases h
  · cases hd : T.dec c with
    | data x =>
      rw [hd] at h; cases h
      exact .inl ⟨x, rfl, rfl⟩
    | term =>
      rw [hd] at h
      cases last with
      | false => cases h
      | true =>
        cases ht : tailIndexNat T c with
        | none => simp [ht] at h
        | some t =>
          rw [ht] at h
          change (if t ≥ 2 ^ (8 - rem) then Except.error 4 else .ok (8 - rem, t)) = .ok (k, v) at h
          split at h
          · cases h
          · cases h
            exact .inr ⟨rfl, rfl, rfl⟩

/-- The bytes of a decode that succeeds, from a state with `rem` bits buffered: those of all the bits when the last
symbol is data; with a terminator last, those of the bits before it rounded up, or the terminator's own byte. -/
theorem decodeFrom_ok_length (T : Tables) (cs : List CodePoint) (c : CodePoint) (stage rem pos : Nat) (hrem : rem ≤ 8)
    {bs : List Byte} (h : decodeFrom T stage rem (rem % 8) pos (cs ++ [c]) = (bs, .ok)) :
    (∀ v, T.dec c = .data v → bs.length = (rem + 11 * (cs.length + 1)) / 8) ∧
      (T.dec c = .term → bs.length = max 1 ((rem + 11 * cs.length + 7) / 8)) := by
  induction cs generalizing stage rem pos bs with
  | nil =>
    rw [List.nil_append] at h
    cases hb : symbolBits T ((rem % 8 + 11) % 8) rem c true with
    | error code => rw [decodeFrom_error stage pos hb] at h; cases h
    | ok kv =>
      obtain ⟨k, v⟩ := kv
      have hk := symbolBits_ok_cases hb
      rw [if_pos rfl] at hk
      have hbits : rem + k ≤ 24 := by omega
      rw [decodeFrom_last stage pos hb hbits] at h
      obtain rfl : lastBytes (stage * 2 ^ k ||| v) (rem + k) = bs := congrArg Prod.fst h
      rw [lastBytes_length _ (by omega), List.length_nil]
      rcases hk with ⟨x, hd, hk⟩ | ⟨hd, -, hk⟩
      · exact ⟨fun _ _ => by omega, fun ht => nomatch hd.symm.trans ht⟩
      · exact ⟨fun _ hx => (nomatch hd.symm.trans hx), fun _ => by omega⟩
  | cons c' cs ih =>
    have hcs : cs ++ [c] ≠ [] := by simp
    rw [List.cons_append] at h
    cases hb : symbolBits T ((rem % 8 + 11) % 8) rem c' false with
    | error code =>
      rw [← List.isEmpty_eq_false_iff.2 hcs] at hb
      rw [decodeFrom_error stage pos hb] at h; cases h
    | ok kv =>
      obtain ⟨k, v⟩ := kv
      obtain rfl : k = 11 := by
        rcases symbolBits_ok_cases hb with ⟨-, -, hk⟩ | ⟨-, hl, -⟩
        · exact hk
        · cases hl
      obtain ⟨bs', a, r, hdrain⟩ : ∃ bs' a r, drain (stage * 2 ^ 11 ||| v) (rem + 11) = (bs', a, r) := ⟨_, _, _, rfl⟩
      obtain ⟨hle, hcount, hpos⟩ := drain_length_of_eq hdrain
      have hres : (rem % 8 + 11) % 8 = r % 8 := by omega
      rw [decodeFrom_next pos hcs hb (by omega) hdrain, hres] at h
      obtain ⟨hbytes, hok⟩ := Prod.mk.inj h
      obtain ⟨hdata, hterm⟩ := ih a r (pos + 1) hle (Prod.ext rfl hok)
      rw [← hbytes, List.length_append, List.length_cons]
      refine ⟨fun v hv => ?_, fun ht => ?_⟩
      · rw [hdata v hv]; omega
      · rw [hterm ht]; omega

end Reference

/-- Settles O51: the call succeeds as the reference does, which begins with no bit buffered. -/
theorem decodedLengthLaw : Obligations.DecodedLengthLaw := fun T cps c bs h => by
  obtain ⟨hdata, hterm⟩ :=
    Reference.decodeFrom_ok_length T cps c 0 0 0 (Nat.zero_le 8) ((decodeCall_ok_iff T _ bs).1 h)
  refine ⟨fun v hv => ?_, fun ht => ?_⟩
  · rw [hdata v hv, Nat.zero_add]
  · rw [hterm ht]
    split <;> omega

end Sys2Proof.Machine
end

section
/-! The round trip (spec/41_decoder.md R140), and the strings that decode though the encoder never emits them (R138). -/

namespace Sys2Proof.Machine

namespace Reference

/-! The loop on a bit stream. -/

@[simp] theorem bitStream_append (bs bs' : List Byte) : bitStream (bs ++ bs') = bitStream bs ++ bitStream bs' :=
  List.flatMap_append

/-- Merging is appending: the bits of a symbol come after those buffered. -/
theorem bitsValue_or_append (buf group : List Bool) :
    bitsValue buf * 2 ^ group.length ||| bitsValue group = bitsValue (buf ++ group) := by
  rw [← Nat.shiftLeft_eq, shiftLeft_or_of_lt (bitsValue_lt group), bitsValue_append]

/-- The loop takes the whole bytes off a stream while more than 8 bits are there. -/
theorem drainRounds_bitStream (fuel : Nat) (bs : List Byte) {left : List Bool} (h0 : 0 < left.length)
    (h8 : left.length ≤ 8) (hfuel : bs.length ≤ fuel) :
    drainRounds fuel (bitsValue (bitStream bs ++ left)) (bitStream bs ++ left).length =
      (bs, bitsValue left, left.length) := by
  induction bs generalizing fuel with
  | nil => exact drainRounds_of_le h8
  | cons b bs ih =>
    obtain ⟨n, rfl⟩ : ∃ n, fuel = n + 1 := ⟨fuel - 1, by rw [List.length_cons] at hfuel; omega⟩
    obtain ⟨hdiv, hmod⟩ := bitsValue_append_div_mod (byteBits b) (bitStream bs ++ left)
    have hlen : (byteBits b ++ (bitStream bs ++ left)).length - 8 = (bitStream bs ++ left).length := by
      rw [List.length_append, byteBits_length, Nat.add_sub_cancel_left]
    have hbyte : trunc8 b.toNat = b := by rw [trunc8, BitVec.ofNat_toNat, BitVec.setWidth_eq]
    rw [bitStream_cons, List.append_assoc, drainRounds_succ_of_gt (by simp; omega), hlen, hdiv, hmod,
      bitsValue_byteBits, hbyte, ih n (Nat.le_of_succ_le_succ hfuel)]

/-- `drainRounds_bitStream` for the loop from its start. -/
theorem drain_bitStream (bs : List Byte) {left : List Bool} (h0 : 0 < left.length) (h8 : left.length ≤ 8) :
    drain (bitsValue (bitStream bs ++ left)) (bitStream bs ++ left).length = (bs, bitsValue left, left.length) :=
  drainRounds_bitStream _ bs h0 h8 (by rw [List.length_append, bitStream_length]; omega)

/-- The loop and the final flush give a stream's bytes back. -/
theorem lastBytes_bitStream {bs : List Byte} (h : bs ≠ []) :
    lastBytes (bitsValue (bitStream bs)) (8 * bs.length) = bs := by
  obtain ⟨init, b, rfl⟩ := (List.eq_nil_or_concat' bs).resolve_left h
  have hdrain := drain_bitStream init (left := byteBits b) (by simp) le_rfl
  have hsplit : bitStream (init ++ [b]) = bitStream init ++ byteBits b := by simp
  rw [← bitStream_length, lastBytes, hsplit, hdrain, byteBits_length, finalFlush_eight, bitsValue_byteBits, trunc8,
    BitVec.ofNat_toNat, BitVec.setWidth_eq]

/-- A stream cut anywhere: the whole bytes before the cut, the bits left over there, and those bits with the rest. -/
theorem bitStream_split {xs ys : List Bool} {bytes : List Byte} {n : Nat} (h : xs ++ ys = bitStream bytes)
    (hn : 8 * n ≤ xs.length) :
    xs = bitStream (bytes.take n) ++ xs.drop (8 * n) ∧ xs.drop (8 * n) ++ ys = bitStream (bytes.drop n) := by
  have hlen := congrArg List.length h
  rw [List.length_append, bitStream_length] at hlen
  have htake : (bitStream (bytes.take n)).length = 8 * n := by
    rw [bitStream_length, List.length_take, Nat.min_eq_left (by omega)]
  rw [← List.take_append_drop n bytes, bitStream_append] at h
  have hfront := congrArg (List.take (8 * n)) h
  have hback := congrArg (List.drop (8 * n)) h
  rw [List.take_append_of_le_length hn, List.take_left' htake] at hfront
  rw [List.drop_append_of_le_length hn, List.drop_left' htake] at hback
  exact ⟨by rw [← hfront, List.take_append_drop], hback⟩

/-- A group of 11 bits merged with those buffered: the stream's first bytes leave, at most 8 bits are kept, and they and
the rest of the stream are the bytes to come. -/
theorem drain_group {buf group rest : List Bool} {bytes : List Byte} (hgroup : group.length = 11)
    (hstream : buf ++ group ++ rest = bitStream bytes) :
    ∃ bs left bytes', bytes = bs ++ bytes' ∧ left ++ rest = bitStream bytes' ∧ left.length ≤ 8 ∧
      left.length % 8 = (buf.length + 11) % 8 ∧
      drain (bitsValue buf * 2 ^ 11 ||| bitsValue group) (buf.length + 11) = (bs, bitsValue left, left.length) := by
  have hmerged : (buf ++ group).length = buf.length + 11 := by rw [List.length_append, hgroup]
  obtain ⟨n, h0, h8⟩ : ∃ n, 8 * n < buf.length + 11 ∧ buf.length + 11 ≤ 8 * n + 8 :=
    ⟨(buf.length + 10) / 8, by omega, by omega⟩
  obtain ⟨hwhole, hleft⟩ := bitStream_split (n := n) hstream (by omega)
  have hkept : ((buf ++ group).drop (8 * n)).length = buf.length + 11 - 8 * n := by rw [List.length_drop, hmerged]
  have hdrain := drain_bitStream (bytes.take n) (left := (buf ++ group).drop (8 * n)) (by omega) (by omega)
  rw [← hwhole, hmerged, ← bitsValue_or_append, hgroup] at hdrain
  exact ⟨_, _, _, (List.take_append_drop n bytes).symm, hleft, by omega, by omega, hdrain⟩

/-! The symbols of the encoder under the checks. -/

/-- A main symbol passes with its value (T1). -/
theorem symbolBits_enc {T : Tables} (h : T.T1) (residue rem : Nat) (v : SymValue) (last : Bool) :
    symbolBits T residue rem (T.enc v) last = .ok (if last then 11 - residue else 11, v.toNat) := by
  obtain ⟨hle, hd⟩ := h v
  rw [symbolBits, if_neg (Nat.not_lt.2 (BitVec.le_def.1 hle)), hd]

/-- A last tail symbol whose index fits the bits owed passes with its index (T2, T3). -/
theorem symbolBits_tail {T : Tables} (h2 : T.T2) (h3 : T.T3) (residue : Nat) {rem : Nat} {j : TailIndex}
    (hj : j.toNat < 2 ^ (8 - rem)) : symbolBits T residue rem (T.tail j) true = .ok (8 - rem, j.toNat) := by
  obtain ⟨hle, hd⟩ := h2 j
  have hindex : tailIndexNat T (T.tail j) = some j.toNat := by
    rw [tailIndexNat_eq, (tailIndex_eq_some_iff T _ j).2 ⟨rfl, fun j' hlt he => ?_⟩]
    · rfl
    · rw [h3 _ _ he] at hlt; bv_omega
  rw [symbolBits, if_neg (Nat.not_lt.2 (BitVec.le_def.1 hle)), hd, hindex]
  exact if_neg (Nat.not_le.2 hj)

/-- The last group of a stream is one symbol, and as last, with `rem` bits buffered that the group completes to whole
bytes, the symbol passes with the group's bits: `11 - res` or `8 - rem` is the group's length. -/
theorem packBits_last_passes {T : Tables} (h : T.WF) (fuel : Nat) {rem : Nat} {bits : List Bool} (h0 : bits ≠ [])
    (h11 : bits.length ≤ 11) (hrem : rem ≤ 8) (h8 : (rem + bits.length) % 8 = 0) :
    ∃ c, packBits T (fuel + 1) bits = [c] ∧
      symbolBits T ((rem % 8 + 11) % 8) rem c true = .ok (bits.length, bitsValue bits) := by
  obtain ⟨h1, h2, h3⟩ := h
  have hpos := List.length_pos_iff.2 h0
  rcases Nat.lt_or_ge 3 bits.length with hmain | htail
  · refine ⟨T.enc (BitVec.ofNat 11 (bitsValue bits)), ?_, ?_⟩
    · rcases Nat.lt_or_ge bits.length 11 with hshort | hfull
      · exact packBits_main T fuel hmain (by omega)
      · have hgroup := packBits_group T fuel [] (Nat.le_antisymm h11 hfull)
        rwa [List.append_nil, packBits_nil] at hgroup
    · rw [symbolBits_enc h1, toNat_ofNat_bitsValue h11, if_pos rfl, show 11 - (rem % 8 + 11) % 8 = bits.length by omega]
  · have howed : 8 - rem = bits.length := by omega
    have hvalue := toNat_ofNat_bitsValue htail
    refine ⟨T.tail (BitVec.ofNat 3 (bitsValue bits)), packBits_tail T fuel hpos htail, ?_⟩
    rw [symbolBits_tail h2 h3 _ (by rw [hvalue, howed]; exact bitsValue_lt bits), hvalue, howed]

/-- A stream with bits packs to some symbols. -/
theorem packBits_ne_nil (T : Tables) (fuel : Nat) {bits : List Bool} (h : bits ≠ []) :
    packBits T (fuel + 1) bits ≠ [] := by
  have h0 : bits.length ≠ 0 := mt List.length_eq_zero_iff.1 h
  rw [packBits, if_neg h0]
  split_ifs <;> simp

/-- Decoding the packed rest of a stream, with the bits before it buffered, gives the stream's bytes. Each symbol
that is not last is a group of 11 bits; the whole bytes of the buffered bits and the group leave, the bits left over are
buffered. -/
theorem decodeFrom_packBits {T : Tables} (h : T.WF) (fuel : Nat) {buf bits : List Bool} {bytes : List Byte} (pos : Nat)
    (h0 : bits ≠ []) (hbuf : buf.length ≤ 8) (hstream : buf ++ bits = bitStream bytes) (hfuel : bits.length ≤ fuel) :
    decodeFrom T (bitsValue buf) buf.length (buf.length % 8) pos (packBits T (fuel + 1) bits) = (bytes, .ok) := by
  have hpos := List.length_pos_iff.2 h0
  induction fuel generalizing buf bits bytes pos with
  | zero => omega
  | succ fuel ih =>
    have hlen := congrArg List.length hstream
    rw [List.length_append, bitStream_length] at hlen
    rcases Nat.lt_or_ge 11 bits.length with hmore | hlast
    · have hgroup : (bits.take 11).length = 11 := List.length_take_of_le (by omega)
      have hrest : (bits.drop 11).length = bits.length - 11 := List.length_drop
      have hrest0 : bits.drop 11 ≠ [] := List.length_pos_iff.1 (by omega)
      rw [← List.take_append_drop 11 bits, ← List.append_assoc] at hstream
      obtain ⟨bs, left, bytes', rfl, hleft, hle, hres, hdrain⟩ := drain_group hgroup hstream
      have hpass := symbolBits_enc h.1 ((buf.length % 8 + 11) % 8) buf.length
        (BitVec.ofNat 11 (bitsValue (bits.take 11))) false
      rw [toNat_ofNat_bitsValue hgroup.le, if_neg Bool.false_ne_true] at hpass
      conv_lhs => rw [← List.take_append_drop 11 bits, packBits_group T _ _ hgroup]
      rw [decodeFrom_next pos (packBits_ne_nil T fuel hrest0) hpass (by omega) hdrain, Nat.mod_add_mod, ← hres,
        ih (pos + 1) hrest0 hle hleft (by omega) (by omega)]
    · obtain ⟨c, hpack, hpass⟩ := packBits_last_passes h (fuel + 1) h0 hlast hbuf (by omega)
      have hbytes : bytes ≠ [] := by rintro rfl; rw [List.length_nil] at hlen; omega
      rw [hpack, decodeFrom_last _ pos hpass (by omega), bitsValue_or_append, hstream, hlen, lastBytes_bitStream hbytes]

/-- Decoding the packed stream of a buffer gives the buffer back. -/
theorem decodeWhole_encodeStream {T : Tables} (h : T.WF) (bytes : List Byte) :
    decodeWhole T (encodeStream T bytes) = (bytes, .ok) := by
  cases bytes with
  | nil => rfl
  | cons b bytes =>
    exact decodeFrom_packBits h _ (buf := []) 0 (by rw [bitStream_cons]; exact List.cons_ne_nil _ _) (Nat.zero_le 8) rfl
      le_rfl

end Reference

open Reference

/-- Settles O50: both calls are their references. -/
theorem decodingAnEncodedBufferGivesItBack : Obligations.DecodingAnEncodedBufferGivesItBack := fun T bytes h => by
  rw [decodeCall_ok_iff, encodeCallPacksTheBitStream]
  exact decodeWhole_encodeStream h bytes

/-! Strings that decode (R138). -/

/-- A lone symbol that passes with 8 bits gives the low 8 bits of its value. -/
theorem decodeCall_singleton {T : Tables} {c : CodePoint} {v : Nat} (h : symbolBits T 3 0 c true = .ok (8, v)) :
    decodeCall T [c] = [.byte (trunc8 v), .decDone .ok] := by
  refine (decodeCall_ok_iff T [c] [trunc8 v]).2 ((decodeFrom_last 0 0 h (by decide)).trans ?_)
  rw [Nat.zero_mul, Nat.zero_or, lastBytes_eight]

/-- A lone main symbol gives the low 8 bits of its value (R138 case d). -/
theorem decodeCall_enc {T : Tables} (h : T.T1) (v : SymValue) :
    decodeCall T [T.enc v] = [.byte (trunc8 v.toNat), .decDone .ok] :=
  decodeCall_singleton (symbolBits_enc h 3 0 v true)

/-- A lone tail symbol gives its index (R138 case a). -/
theorem decodeCall_tail {T : Tables} (h2 : T.T2) (h3 : T.T3) (j : TailIndex) :
    decodeCall T [T.tail j] = [.byte (trunc8 j.toNat), .decDone .ok] :=
  decodeCall_singleton (symbolBits_tail h2 h3 3 (j.isLt.trans (by decide)))

/-- The string M(0x7FF), T(7) of R138 case b: the first symbol leaves 3 bits, and 7 fits the 5 bits owed. -/
theorem decodeCall_enc_tail {T : Tables} (h : T.WF) :
    decodeCall T [T.enc 0x7FF#11, T.tail 7#3] = [.byte 0xFF#8, .byte 0xE7#8, .decDone .ok] := by
  obtain ⟨h1, h2, h3⟩ := h
  have hfirst := decodeFrom_next (stage := 0) (cs := [T.tail 7#3]) 0 (List.cons_ne_nil _ _)
    (symbolBits_enc h1 ((0 + 11) % 8) 0 0x7FF#11 false) (by decide) (drain_one (by decide) (by decide))
  have htail := symbolBits_tail (rem := 3) h2 h3 6 (j := 7#3) (by decide)
  have hlast := decodeFrom_last (residue := 3) 7 1 htail (by decide)
  refine (decodeCall_ok_iff T _ [0xFF#8, 0xE7#8]).2 (hfirst.trans ?_)
  exact congrArg (fun d : List Byte × Verdict => ([0xFF#8] ++ d.1, d.2)) hlast

/-- A string that decodes to the bytes `bs` is the string of no buffer, unless it is that of `bs`. -/
theorem encodeCall_ne_of_decodeCall {T : Tables} (h : T.WF) {cps : List CodePoint} {bs : List Byte}
    (hdec : decodeCall T cps = bs.map DecToken.byte ++ [.decDone .ok]) (hne : encodeCall T bs ≠ cps)
    (bytes : List Byte) : encodeCall T bytes ≠ cps := by
  rintro rfl
  have hround := (decodeCall_ok_iff T _ _).1 (decodingAnEncodedBufferGivesItBack T bytes h)
  rw [decodeCall_ok_iff, hround] at hdec
  exact hne (congrArg (encodeCall T) (congrArg Prod.fst hdec).symm)

/-- One byte encodes to the main symbol of its value. -/
theorem encodeCall_byte (T : Tables) (b : Byte) : encodeCall T [b] = [T.enc (BitVec.ofNat 11 b.toNat)] := by
  have hstream : bitStream [b] = byteBits b := List.append_nil _
  rw [encodeCallPacksTheBitStream, encodeStream, hstream, packBits_main T _ (by simp) (by simp), bitsValue_byteBits]

/-- Main symbols of different values differ (T1). -/
theorem enc_injective {T : Tables} (h : T.T1) {v v' : SymValue} (he : T.enc v = T.enc v') : v = v' := by
  obtain ⟨-, hv⟩ := h v
  obtain ⟨-, hv'⟩ := h v'
  exact DecEntry.data.inj (hv.symm.trans ((congrArg T.dec he).trans hv'))

/-- No main symbol is a tail symbol (T1, T2). -/
theorem enc_ne_tail {T : Tables} (h1 : T.T1) (h2 : T.T2) (v : SymValue) (j : TailIndex) :
    T.enc v ≠ T.tail j := fun he => by
  obtain ⟨-, hv⟩ := h1 v
  obtain ⟨-, hj⟩ := h2 j
  rw [he, hj] at hv
  cases hv

/-- Settles O54: the strings are decoded, and none is the string of the bytes it decodes to. -/
theorem decodingIsNotInjective : Obligations.DecodingIsNotInjective := fun T h => by
  have ⟨h1, h2, h3⟩ := h
  have hmain (v : SymValue) (hv : BitVec.ofNat 11 (trunc8 v.toNat).toNat ≠ v) (bytes : List Byte) :
      encodeCall T bytes ≠ [T.enc v] := by
    refine encodeCall_ne_of_decodeCall h (bs := [trunc8 v.toNat]) (decodeCall_enc h1 v) ?_ bytes
    rw [encodeCall_byte]
    exact fun he => hv (enc_injective h1 (List.cons.inj he).1)
  refine ⟨decodeCall_tail h2 h3, fun he => absurd (enc_injective h1 he) (by decide), decodeCall_enc h1 _,
    decodeCall_enc h1 _, decodeCall_enc h1 _, decodeCall_enc_tail h,
    fun bytes => ⟨fun j => ?_, hmain _ (by decide) bytes, hmain _ (by decide) bytes, ?_⟩⟩
  · refine encodeCall_ne_of_decodeCall h (bs := [trunc8 j.toNat]) (decodeCall_tail h2 h3 j) ?_ bytes
    rw [encodeCall_byte]
    exact fun he => enc_ne_tail h1 h2 _ j (List.cons.inj he).1
  · have hcanonical : encodeCall T [0xFF#8, 0xE7#8] = [T.enc 0x7FF#11, T.enc 7#11] :=
      (encodeCallPacksTheBitStream T _).trans rfl
    refine encodeCall_ne_of_decodeCall h (bs := [0xFF#8, 0xE7#8]) (decodeCall_enc_tail h) ?_ bytes
    rw [hcanonical]
    exact fun he => enc_ne_tail h1 h2 _ _ (List.cons.inj (List.cons.inj he).2).1

end Sys2Proof.Machine
end

section
/-! The checks of PROCESS and the errors they raise (spec/60_exceptions.md R171 to R176), and the call an error ends
(R179, R180; spec/95_test_vectors.md V-S4). -/

namespace Sys2Proof.Machine

/-! The checks. -/

/-- What each code says of the symbol that raised it (R172 to R175). -/
theorem checkSymbol_error_cases {T : Tables} {c : CodePoint} {last : Bool} {res : Fin 8} {rem : Fin 9} {code : ErrCode}
    (h : checkSymbol T c last res rem = .error code) :
    (code = .invalidCharacter ∧ T.maxCp < c) ∨
    (code = .unexpectedAfterTerminator ∧ c ≤ T.maxCp ∧ T.dec c = .term ∧ last = false) ∨
    (code = .invalidTerminationCharacter ∧ c ≤ T.maxCp ∧ T.dec c = .term ∧ last = true ∧ tailIndex T c = none) ∨
    (code = .invalidTailCharacter ∧ c ≤ T.maxCp ∧ T.dec c = .term ∧ last = true ∧
      ∃ j, tailIndex T c = some j ∧ 2 ^ tailBits rem ≤ j.toNat) := by
  rcases checkSymbol_cases T c last res rem with ⟨hgt, he⟩ | ⟨-, v, -, he⟩ | ⟨hle, hd, hl, he⟩ | ⟨hle, hd, hl, ht, he⟩ |
    ⟨hle, hd, hl, j, ht, hj, he⟩ | ⟨-, -, -, j, -, -, he⟩
  all_goals rw [he] at h; cases h
  · exact .inl ⟨rfl, hgt⟩
  · exact .inr (.inl ⟨rfl, hle, hd, hl⟩)
  · exact .inr (.inr (.inl ⟨rfl, hle, hd, hl, ht⟩))
  · exact .inr (.inr (.inr ⟨rfl, hle, hd, hl, j, ht, hj⟩))

/-- Code 1 is raised exactly above `MAXCP` (R172). -/
theorem checkSymbol_eq_invalidCharacter_iff {T : Tables} {c : CodePoint} {last : Bool} {res : Fin 8} {rem : Fin 9} :
    checkSymbol T c last res rem = .error .invalidCharacter ↔ T.maxCp < c := by
  refine ⟨fun h => ?_, checkSymbol_of_gt last res rem⟩
  rcases checkSymbol_error_cases h with ⟨-, hgt⟩ | ⟨he, -⟩ | ⟨he, -⟩ | ⟨he, -⟩
  · exact hgt
  all_goals cases he

/-- Settles O21: no other check answers code 1. -/
theorem invalidCharacterMeansAboveMaxcp : Obligations.InvalidCharacterMeansAboveMaxcp := by
  refine ⟨fun T c last res rem => checkSymbol_eq_invalidCharacter_iff, fun T last res rem hmax => ?_, rfl⟩
  rw [ne_eq, checkSymbol_eq_invalidCharacter_iff, checkSymbol_eq_invalidCharacter_iff, hmax]
  decide

/-- A 3-bit index is out of range of `8 - rem` bits only when at most 2 bits are owed (R175). -/
theorem six_le_of_tailBits_le {rem : Fin 9} {j : TailIndex} (h : 2 ^ tailBits rem ≤ j.toNat) : 6 ≤ rem.val := by
  by_contra hrem
  have hpow : 2 ^ 3 ≤ 2 ^ tailBits rem := Nat.pow_le_pow_right (by decide) (by unfold tailBits; omega)
  omega

/-- Settles O31: the search found the index, and an index has 3 bits. -/
theorem invalidTailCharacterNeedsSixBufferedBits : Obligations.InvalidTailCharacterNeedsSixBufferedBits :=
  fun T c last res rem h => by
    rcases checkSymbol_error_cases h with ⟨he, -⟩ | ⟨he, -⟩ | ⟨he, -⟩ | ⟨-, -, hd, hl, j, ht, hj⟩
    iterate 3 cases he
    obtain ⟨hmem, hmin⟩ := (tailIndex_eq_some_iff T c j).1 ht
    exact ⟨six_le_of_tailBits_le hj, hl, hd, j, hmem, hmin, hj⟩

/-! PROCESS. -/

/-- A symbol that passes the checks leaves the error latch's code as it is. -/
theorem process_d_err_of_ok {T : Tables} {c : CodePoint} {last : Bool} {s : State} {kv : Nat × Nat} (i : Pos)
    (h : checkSymbol T c last (nextResidue s.d_residue) s.d_rem = .ok kv) :
    (process T c i last s).d_err = s.d_err := by
  rcases process_cases T c i last s with ⟨code, he, -⟩ | ⟨k, v, bs, -, ⟨-, ht⟩ | ⟨-, a, r, ht⟩⟩
  · rw [he] at h; cases h
  · rw [ht]; rfl
  · rw [ht]; rfl

/-- Settles O20: one clause for each answer of the checks. -/
theorem processRaisesTheFirstFailedCheck : Obligations.ProcessRaisesTheFirstFailedCheck := fun T c i last s => by
  refine ⟨fun hgt => process_error i (checkSymbol_of_gt _ _ _ hgt), ?_, ?_, fun j hle hd hl hj hmin => ?_,
    fun v hle hd => process_d_err_of_ok i (checkSymbol_of_data _ _ _ hle hd)⟩
  · rintro hle hd rfl
    exact process_error i (checkSymbol_of_term_notLast _ _ hle hd)
  · rintro hle hd rfl hno
    exact process_error i (checkSymbol_of_no_tailIndex _ _ hle hd ((tailIndex_eq_none_iff T c).2 hno))
  · subst hl
    have ht := (tailIndex_eq_some_iff T c j).2 ⟨hj, hmin⟩
    exact ⟨fun hge => process_error i (checkSymbol_of_tailIndex_ge _ _ hle hd ht hge),
      fun hlt => process_d_err_of_ok i (checkSymbol_of_tailIndex_lt _ _ hle hd ht hlt)⟩

/-! Who raises which code. -/

/-- The 3-bit register never holds 5 to 7. -/
theorem errBits_le_four (e : Option ErrCode) : (errBits e).toNat ≤ 4 := by
  cases e with
  | none => decide
  | some code => cases code <;> decide

/-- An error that DEC_SYM latches is that of the pending symbol's checks, with its position and code point (R178). -/
theorem decSymEffect_latches (T : Tables) (c : CodePoint) {s : State} {code : ErrCode} (herr : s.d_err = none)
    (h : (decSymEffect T c s).d_err = some code) :
    checkSymbol T s.d_pend_cp false (nextResidue s.d_residue) s.d_rem = .error code ∧
      (decSymEffect T c s).d_err_pos = pendPos s ∧ (decSymEffect T c s).d_err_cp = s.d_pend_cp := by
  rcases decSymEffect_cases T c s with ⟨⟨code', he⟩, -⟩ | ⟨-, -, ht⟩ | ⟨-, -, code', hc, ht⟩ | ⟨-, -, k, v, hc, ht⟩
  · rw [herr] at he; cases he
  · rw [ht, State.holdPending_d_err, herr] at h; cases h
  · rw [ht] at h ⊢
    cases h
    exact ⟨hc, rfl, rfl⟩
  · rw [ht, State.holdPending_d_err, process_d_err_of_ok _ hc, herr] at h; cases h

/-- DEC_END with no error latched reports OK or what the pending symbol's checks raise, with its position and code point
(R171, R180). -/
theorem decEndEffect_reports (T : Tables) {s : State} (herr : s.d_err = none) :
    (∃ ts, (decEndEffect T s).dec_out = s.dec_out ++ ts ++ [.decDone .ok]) ∨
    (∃ code, checkSymbol T s.d_pend_cp true (nextResidue s.d_residue) s.d_rem = .error code ∧
      (decEndEffect T s).dec_out = s.dec_out ++ [.decDone (.err code (pendPos s) s.d_pend_cp)]) := by
  cases hp : s.d_pend_valid with
  | false =>
    refine .inl ⟨[], ?_⟩
    rw [decEndEffect_empty T herr hp, endDecodeCall_dec_out, callStatus_of_none herr, List.append_nil]
  | true =>
    cases hc : checkSymbol T s.d_pend_cp true (nextResidue s.d_residue) s.d_rem with
    | error code => exact .inr ⟨code, rfl, decEndEffect_raise_dec_out T herr hp hc⟩
    | ok kv => exact .inl ⟨_, (decEndEffect_pass_dec_out T herr hp hc).trans (List.append_assoc _ _ _).symm⟩

/-- Settles O22: DEC_SYM checks its symbol as not last, DEC_END as last. -/
theorem errorCodesAndWhoRaisesThem : Obligations.ErrorCodesAndWhoRaisesThem := by
  refine ⟨rfl, rfl, rfl, rfl, rfl, errBits_le_four, fun T c s code herr h => ?_, fun T s ts code pos cp herr h => ?_⟩
  · obtain ⟨hc, hpos, hcp⟩ := decSymEffect_latches T c herr h
    refine ⟨?_, hpos, hcp⟩
    rcases checkSymbol_error_cases hc with ⟨rfl, -⟩ | ⟨rfl, -⟩ | ⟨-, -, -, hl, -⟩ | ⟨-, -, -, hl, -⟩
    · exact .inl rfl
    · exact .inr rfl
    all_goals cases hl
  · change (decEndEffect T s).dec_out = _ at h
    rcases decEndEffect_reports T herr with ⟨ts', hok⟩ | ⟨code', hc, hraise⟩
    · obtain ⟨-, hlast⟩ := List.append_inj' (hok.symm.trans h) rfl
      cases hlast
    · obtain ⟨-, hlast⟩ := List.append_inj' (hraise.symm.trans h) rfl
      cases hlast
      refine ⟨?_, rfl, rfl⟩
      rcases checkSymbol_error_cases hc with ⟨rfl, -⟩ | ⟨-, -, -, hl⟩ | ⟨rfl, -⟩ | ⟨rfl, -⟩
      · exact .inl rfl
      · cases hl
      · exact .inr (.inl rfl)
      · exact .inr (.inr rfl)

/-! A failed call. -/

/-- Settles O25: neither command processes anything while an error is latched. -/
theorem failedCallIsReportedOnce : Obligations.FailedCallIsReportedOnce := fun s code h => by
  refine ⟨fun c => ?_, _, exec_eq_effect .decEnd s, decEndEffect_atInit Config.tables s, ?_⟩
  · rw [exec_eq_effect, effectWith, decSymEffect_failed Config.tables c h]
  · rw [effectWith, decEndEffect_failed Config.tables h, endDecodeCall_dec_out, callStatus_of_some h]

/-- A DEC_SYM leaves the call failed or its symbol held. -/
theorem decSymEffect_fails_or_holds (T : Tables) (c : CodePoint) (s : State) :
    (∃ code, (decSymEffect T c s).d_err = some code) ∨
      ((decSymEffect T c s).d_err = none ∧ (decSymEffect T c s).d_pend_valid = true ∧
        (decSymEffect T c s).d_pend_cp = c) := by
  rcases decSymEffect_cases T c s with ⟨he, ht⟩ | ⟨he, -, ht⟩ | ⟨-, -, code, -, ht⟩ | ⟨he, -, k, v, hc, ht⟩
  · rw [ht]; exact .inl he
  · rw [ht]; exact .inr ⟨he, rfl, rfl⟩
  · rw [ht]; exact .inl ⟨code, rfl⟩
  · rw [ht]; exact .inr ⟨(process_d_err_of_ok _ hc).trans he, rfl, rfl⟩

/-- A DEC_SYM after a held tail symbol raises code 2 (T2, R173). -/
theorem decSymEffect_after_tail {T : Tables} (h2 : T.T2) (j : TailIndex) (c : CodePoint) {s : State}
    (herr : s.d_err = none) (hp : s.d_pend_valid = true) (hcp : s.d_pend_cp = T.tail j) :
    decSymEffect T c s = raiseDecodeError s .unexpectedAfterTerminator (pendPos s) (T.tail j) := by
  obtain ⟨hle, hd⟩ := h2 j
  have hc := checkSymbol_of_term_notLast (nextResidue s.d_residue) s.d_rem hle hd
  rw [← hcp] at hc ⊢
  exact decSymEffect_raise T c herr hp hc

/-- A tail symbol and a symbol after it fail the call, whatever came before (T2). -/
theorem decSymEffect_tail_next_fails {T : Tables} (h2 : T.T2) (j : TailIndex) (c : CodePoint) (s : State) :
    ∃ code, (decSymEffect T c (decSymEffect T (T.tail j) s)).d_err = some code := by
  rcases decSymEffect_fails_or_holds T (T.tail j) s with ⟨code, he⟩ | ⟨he, hp, hcp⟩
  · exact ⟨code, by rw [decSymEffect_failed T c he, he]⟩
  · exact ⟨_, congrArg State.d_err (decSymEffect_after_tail h2 j c he hp hcp)⟩

/-- A decode call's symbols up to some point, then the rest of the call. -/
theorem applyCommands_decodeCommands_append (T : Tables) (pre cps : List CodePoint) (s : State) :
    applyCommands T (decodeCommands (pre ++ cps)) s =
      applyCommands T (decodeCommands cps) (applyCommands T (pre.map Instr.decSym) s) := by
  rw [← applyCommands_append, decodeCommands, decodeCommands, List.map_append, List.append_assoc]

/-- Settles O53: once the symbol after the tail symbol is presented the call has failed, and the rest of it only reports
that. -/
theorem tailSymbolBeforeTheEndFailsTheCall : Obligations.TailSymbolBeforeTheEndFailsTheCall := by
  rintro T pre post j c ⟨-, h2, -⟩
  constructor
  · obtain ⟨code, he⟩ := decSymEffect_tail_next_fails h2 j c (applyCommands T (pre.map Instr.decSym) State.reset)
    rw [decodeCall, applyCommands_decodeCommands_append]
    exact ⟨_, code, _, _, decodeCommands_failed T post he⟩
  · have hraise := decSymEffect_after_tail (s := State.reset.holdPending (T.tail j)) h2 j c rfl rfl rfl
    change (applyCommands T (decodeCommands post) (decSymEffect T c (State.reset.holdPending (T.tail j)))).dec_out = _
    rw [hraise, pendPos_holdPending, decodeCommands_failed T post rfl]
    rfl

end Sys2Proof.Machine
end

section
/-! The commands that raise nothing, and the runs that record no fault (spec/60_exceptions.md R170, R182, R183). -/

namespace Sys2Proof.Machine

/-- Settles O9: a command's meaning is an effect, and a step waits or takes an event. -/
theorem everyCommandCompletes : Obligations.EveryCommandCompletes := by
  refine ⟨fun b s => ⟨_, exec_eq_effect (.encByte b) s⟩, fun s => ⟨_, exec_eq_effect .encEnd s⟩,
    fun c s => ⟨_, exec_eq_effect (.decSym c) s⟩, fun s => ⟨_, exec_eq_effect .decEnd s⟩, fun s => ?_⟩
  cases hp : s.port with
  | nil => exact ⟨_, stepUsing_of_nil hp⟩
  | cons e rest => exact ⟨_, step_of_cons hp⟩

/-- Settles O17: an encoder command is local to the encoder. -/
theorem encoderCommandsFrame : Obligations.EncoderCommandsFrame := fun i s hi => by
  obtain ⟨v, es, h, -⟩ := encCommand_writes Config.tables hi s
  refine ⟨_, exec_eq_effect i s, encCommand_keeps_decoder Config.tables hi s, ?_⟩
  rw [h]
  exact ⟨rfl, rfl, es, rfl⟩

/-- A word leaves `cmd_fault` clear exactly when it was clear and the word is a command (R183). -/
theorem eventEffect_word_unfaulted_iff (T : Tables) (w : Word) (s : State) :
    (eventEffect T (.word w) s).Unfaulted ↔ s.Unfaulted ∧ ∃ i, decode w = .ok i := by
  cases hd : decode w with
  | ok i => simp [eventEffect_of_legal T s hd]
  | error e => simp [eventEffect_of_illegal T s hd]

/-- Settles O36, by induction on the events. -/
theorem unfaultedRunsHoldOnlyCommands : Obligations.UnfaultedRunsHoldOnlyCommands := fun T es s hreset => by
  induction es generalizing s with
  | nil => exact ⟨fun h => ⟨h, nofun⟩, And.left⟩
  | cons e es ih =>
    obtain ⟨hne, hrest⟩ := not_or.1 (mt List.mem_cons.2 hreset)
    cases e with
    | reset => exact absurd rfl hne
    | word w =>
      calc (runEvents T es (eventEffect T (.word w) s)).Unfaulted
          ↔ (s.Unfaulted ∧ ∃ i, decode w = .ok i) ∧ ∀ w', HostEvent.word w' ∈ es → ∃ i, decode w' = .ok i := by
            rw [ih _ hrest, eventEffect_word_unfaulted_iff]
        _ ↔ s.Unfaulted ∧ ∀ w', HostEvent.word w' ∈ HostEvent.word w :: es → ∃ i, decode w' = .ok i := by
            simp [and_assoc]

end Sys2Proof.Machine
end

section
/-! The statements of spec/70_reset_and_hazards.md: a reset event brings every register to its reset value (R200), a run
after a reset shows the host what it shows from `State.reset` (R201), and tokens with no END after them are in no result
(R211). -/

namespace Sys2Proof.Machine

/-- Settles O10: the step is the reset's effect, which writes each register's reset value and keeps the streams. -/
theorem resetEventWritesEveryRegister : Obligations.ResetEventWritesEveryRegister := fun _ _ => stepUsing_of_reset

/-! What the host meets in a run depends on the registers, not on the tokens emitted before it. -/

/-- `out` is a stream: no register and no port event is read off it, and tokens appended to both streams append to it. -/
def IsStream {α : Type} (out : State → List α) : Prop :=
  ∀ (s t : State) (xs es : List EncToken) (ys ds : List DecToken) (rest rest' : List HostEvent),
    out ((t.withStreams (xs ++ es) (ys ++ ds)).withPort rest) =
      out ((s.withStreams xs ys).withPort rest') ++ out (t.withStreams es ds)

theorem isStream_enc_out : IsStream State.enc_out := fun _ _ _ _ _ _ _ _ => rfl

theorem isStream_dec_out : IsStream State.dec_out := fun _ _ _ _ _ _ _ _ => rfl

/-- Each event writes the same registers and shows the same tokens whatever the streams and the port hold, so a run does. -/
theorem runSeen_withStreams_withPort {α : Type} {out : State → List α} (hout : IsStream out) (T : Tables)
    (es : List HostEvent) (s : State) (xs xs' : List EncToken) (ys ys' : List DecToken) (rest rest' : List HostEvent) :
    runSeen out T es ((s.withStreams xs ys).withPort rest) = runSeen out T es ((s.withStreams xs' ys').withPort rest') := by
  induction es generalizing s xs xs' ys ys' with
  | nil => rfl
  | cons e es ih =>
    obtain ⟨t, ts, ds, -, hstreams⟩ := eventEffect_withStreams T e s
    have heffect : ∀ xs ys rest, eventEffect T e ((s.withStreams xs ys).withPort rest) =
        (t.withStreams (xs ++ ts) (ys ++ ds)).withPort rest := fun xs ys rest => by
      rw [eventEffect_withPort, hstreams]
    have hseen : eventSeen out T e ((s.withStreams xs ys).withPort rest) =
        eventSeen out T e ((s.withStreams xs' ys').withPort rest') := by
      cases e with
      | reset => rfl
      | word w =>
        have htokens : ∀ xs ys rest, eventSeen out T (.word w) ((s.withStreams xs ys).withPort rest) =
            (out (t.withStreams ts ds)).map Seen.token := fun xs ys rest =>
          eventSeen_of_append ((congrArg out (heffect xs ys rest)).trans (hout s t xs ts ys ds rest rest))
        rw [htokens, htokens]
    rw [runSeen, runSeen, hseen, heffect, heffect, ih]

/-- Reset leaves of a state its streams and what the host has yet to present (R200). -/
theorem applyReset_eq_reset_with (s : State) :
    applyReset s = (State.reset.withStreams s.enc_out s.dec_out).withPort s.port := rfl

/-- After a reset the host meets what it meets in the same run from `State.reset` (R201). -/
theorem runSeen_after_reset {α : Type} {out : State → List α} (hout : IsStream out) (T : Tables)
    (es es' : List HostEvent) (s : State) :
    runSeen out T (es ++ .reset :: es') s = runSeen out T es s ++ .reset :: runSeen out T es' State.reset := by
  rw [runSeen_append]
  exact congrArg (runSeen out T es s ++ .reset :: ·)
    (runSeen_withStreams_withPort hout T es' State.reset _ [] _ [] _ [])

/-! Results on both sides of a reset. -/

/-- What is read after `ts` adds its results to those of `ts`; it begins with the symbols of the call `ts` leaves open. -/
theorem encResultsFrom_append (acc : List CodePoint) (ts : List (Seen EncToken)) :
    ∃ acc', ∀ ts', encResultsFrom acc (ts ++ ts') = encResultsFrom acc ts ++ encResultsFrom acc' ts' := by
  induction ts generalizing acc with
  | nil => exact ⟨acc, fun _ => rfl⟩
  | cons t ts ih =>
    match t with
    | .token (.sym cp) => exact ih (acc ++ [cp])
    | .token .encDone =>
      obtain ⟨acc', h⟩ := ih []
      exact ⟨acc', fun ts' => congrArg (acc :: ·) (h ts')⟩
    | .reset => exact ih []

/-- What is read after `ts` adds its results to those of `ts`; it begins with the bytes of the call `ts` leaves open. -/
theorem decResultsFrom_append (acc : List Byte) (ts : List (Seen DecToken)) :
    ∃ acc', ∀ ts', decResultsFrom acc (ts ++ ts') = decResultsFrom acc ts ++ decResultsFrom acc' ts' := by
  induction ts generalizing acc with
  | nil => exact ⟨acc, fun _ => rfl⟩
  | cons t ts ih =>
    match t with
    | .token (.byte b) => exact ih (acc ++ [b])
    | .token (.decDone st) =>
      obtain ⟨acc', h⟩ := ih []
      exact ⟨acc', fun ts' => congrArg (decResultOf acc st :: ·) (h ts')⟩
    | .reset => exact ih []

/-- A reset voids the symbols of the encode call it cuts short, and what follows is read afresh (R201, R211). -/
theorem encResults_append_reset (ts ts' : List (Seen EncToken)) :
    encResults (ts ++ .reset :: ts') = encResults ts ++ encResults ts' := by
  obtain ⟨acc, h⟩ := encResultsFrom_append [] ts
  exact h _

/-- A reset voids the bytes of the decode call it cuts short, and what follows is read afresh (R201, R211). -/
theorem decResults_append_reset (ts ts' : List (Seen DecToken)) :
    decResults (ts ++ .reset :: ts') = decResults ts ++ decResults ts' := by
  obtain ⟨acc, h⟩ := decResultsFrom_append [] ts
  exact h _

/-- Settles O43: the host meets the run before the reset, the reset, and the run after it as from `State.reset`; results
split at the reset. -/
theorem resetVoidsTheCallsInProgress : Obligations.ResetVoidsTheCallsInProgress := fun T es es' s =>
  ⟨(congrArg encResults (runSeen_after_reset isStream_enc_out T es es' s)).trans (encResults_append_reset _ _),
    (congrArg decResults (runSeen_after_reset isStream_dec_out T es es' s)).trans (decResults_append_reset _ _)⟩

/-! Calls with no END token. -/

/-- ENC_BYTE commands append symbols, and no EncDone. -/
theorem applyCommands_encBytes_appends (T : Tables) (bytes : List Byte) (s : State) :
    ∃ cps : List CodePoint,
      (applyCommands T (bytes.map Instr.encByte) s).enc_out = s.enc_out ++ cps.map EncToken.sym := by
  induction bytes generalizing s with
  | nil => exact ⟨[], (List.append_nil _).symm⟩
  | cons b bytes ih =>
    obtain ⟨cps, hrest⟩ := ih (encByteEffect T b s)
    rcases encByteEffect_cases T b s with ⟨-, v, a, r, h⟩ | ⟨-, a, r, h⟩
    · exact ⟨T.enc v :: cps, hrest.trans (by rw [h]; simp)⟩
    · exact ⟨cps, hrest.trans (by rw [h]; simp)⟩

/-- DEC_SYM commands append bytes, and no DecDone. -/
theorem applyCommands_decSyms_appends (T : Tables) (cps : List CodePoint) (s : State) :
    ∃ bs : List Byte, (applyCommands T (cps.map Instr.decSym) s).dec_out = s.dec_out ++ bs.map DecToken.byte := by
  induction cps generalizing s with
  | nil => exact ⟨[], (List.append_nil _).symm⟩
  | cons c cps ih =>
    obtain ⟨bs, hfirst, -⟩ := decSymEffect_bytes T c s
    obtain ⟨bs', hrest⟩ := ih (decSymEffect T c s)
    exact ⟨bs ++ bs', hrest.trans (by rw [hfirst]; simp)⟩

/-- Symbols with no EncDone among them are no result. -/
theorem encResultsFrom_syms (acc cps : List CodePoint) :
    encResultsFrom acc ((cps.map EncToken.sym).map Seen.token) = [] := by
  induction cps generalizing acc with
  | nil => rfl
  | cons cp cps ih => exact ih (acc ++ [cp])

/-- Bytes with no DecDone among them are no result. -/
theorem decResultsFrom_bytes (acc bs : List Byte) :
    decResultsFrom acc ((bs.map DecToken.byte).map Seen.token) = [] := by
  induction bs generalizing acc with
  | nil => rfl
  | cons b bs ih => exact ih (acc ++ [b])

/-- Symbols with no EncDone after them are in no result (R211). -/
theorem encResults_append_syms (ts : List (Seen EncToken)) (cps : List CodePoint) :
    encResults (ts ++ (cps.map EncToken.sym).map Seen.token) = encResults ts := by
  obtain ⟨acc, h⟩ := encResultsFrom_append [] ts
  rw [encResults, h, encResultsFrom_syms, List.append_nil, ← encResults]

/-- Bytes with no DecDone after them are in no result (R211). -/
theorem decResults_append_bytes (ts : List (Seen DecToken)) (bs : List Byte) :
    decResults (ts ++ (bs.map DecToken.byte).map Seen.token) = decResults ts := by
  obtain ⟨acc, h⟩ := decResultsFrom_append [] ts
  rw [decResults, h, decResultsFrom_bytes, List.append_nil, ← decResults]

/-- Settles O44: the commands at the end of the run show the host symbols or bytes only. -/
theorem noResultWithoutItsEnd : Obligations.NoResultWithoutItsEnd := by
  refine ⟨fun T es bytes s => ?_, fun T es cps s => ?_⟩
  · obtain ⟨cps, hout⟩ := applyCommands_encBytes_appends T bytes (runEvents T es s)
    have hseen := runSeen_commandEvents (fun es' =>
      runEvents_stream (fun w => eventEffect_enc_out_append T (.word w)) applyReset_enc_out es' _) hout
    rw [runEncResults, runSeen_append, hseen]
    exact encResults_append_syms _ cps
  · obtain ⟨bs, hout⟩ := applyCommands_decSyms_appends T cps (runEvents T es s)
    have hseen := runSeen_commandEvents (fun es' =>
      runEvents_stream (fun w => eventEffect_dec_out_append T (.word w)) applyReset_dec_out es' _) hout
    rw [runDecResults, runSeen_append, hseen]
    exact decResults_append_bytes _ bs

end Sys2Proof.Machine
end
